-- ==== Sys2Proof/Word.lean ====
section
/-! DEFINITION. The word types of the block (00_scope.md R6, R12; 30_encoding.md R59). All values are unsigned and all
arithmetic wraps, which is what `BitVec` does. -/

namespace Sys2Proof

/-- One byte of the stream (20_memory.md R43). -/
abbrev Byte := BitVec 8

/-- A 32-bit datapath value, the spec's `u32` (R12). -/
abbrev Word := BitVec 32

/-- A command word `cmd[63:0]` (R59). -/
abbrev Command := BitVec 64

end Sys2Proof
end

