-- ==== Sys2Proof/Config.lean ====
section
/-! DEFINITION. What an implementation fixes (00_scope.md R6 to R10) and the free values the spec leaves open
(10_state.md R39). An `opaque` constant has no value in Lean: nothing can be proved about which one it is. -/

namespace Sys2Proof

/-- `TB_W`, the width of `total_bytes`: the spec sets 64 and no command can observe it (R8, R29; log 7). -/
abbrev Config.tbW : Nat := 64

/-- A value of the `total_bytes` counter, `TB_W` = 64 bits (R29). -/
abbrev ByteCount := BitVec 64

/-- OPEN (R152, D26): `none` is an implementation without a limit on unanswered commands, `some k` one whose limit is
`k + 1`, since `MAX_OUTSTANDING >= 1` (log 4). -/
opaque Config.extraOutstanding : Option Nat

/-- `MAX_OUTSTANDING`, at least 1 where there is a limit (R152). -/
def Config.maxOutstanding : Option Nat := Config.extraOutstanding.map (· + 1)

/-- Free value of `seed` after the n-th assertion of `rst_n` (R39, U3; log 2). -/
opaque Config.powerOnSeed : Nat → Word

/-- Free value of `running_hash` after power-on reset (R39, U3; log 2). -/
opaque Config.powerOnRunningHash : Nat → Word

/-- Free value of `pending_word` after power-on reset (R39, U3; log 2). -/
opaque Config.powerOnPendingWord : Nat → Word

/-- Free value of `pending_count` after power-on reset (R39, U3; log 2). -/
opaque Config.powerOnPendingCount : Nat → Fin 4

/-- Free value of `total_bytes` after power-on reset (R39, U3; log 2). -/
opaque Config.powerOnTotalBytes : Nat → ByteCount

/-- Free value of `last_digest` after power-on reset (R39, U3; log 2). -/
opaque Config.powerOnLastDigest : Nat → Word

/-- Free value of the `mode` bit after power-on reset, true for ACCUMULATING (R39, U3; log 2). -/
opaque Config.powerOnAccumulating : Nat → Bool

end Sys2Proof
end

