-- ==== Sys2Proof/Syntax.lean ====
section
/-! DEFINITION. The commands as syntax, one constructor per row of spec/opcode_table.json (30_encoding.md R65 to R72).
`APPEND` has five rows, one per byte count. -/

namespace Sys2Proof

/-- A command of the set `MH3X86-32-CMD` version 1 (R3, R65). -/
inductive Instr where
  /-- `INIT <seed32>`, the source's Construct(seed) (R66, R106). -/
  | init (seed : Word)
  /-- `RESET`, the source's Reset() (R67, R116). -/
  | reset
  /-- `APPEND {}` (R68 form N=0, R112). -/
  | append0
  /-- `APPEND {b0}` (R68 form N=1). -/
  | append1 (b0 : Byte)
  /-- `APPEND {b0, b1}` (R68 form N=2); `b0` is lane 0 and enters the stream first (R44). -/
  | append2 (b0 b1 : Byte)
  /-- `APPEND {b0, b1, b2}` (R68 form N=3). -/
  | append3 (b0 b1 b2 : Byte)
  /-- `APPEND {b0, b1, b2, b3}` (R68 form N=4). -/
  | append4 (b0 b1 b2 b3 : Byte)
  /-- `DIGEST` (R69, R120). -/
  | digest
  /-- `DIGESTB <I>` (R70, R122). The operand is the whole 3-bit field `N`; R62 says legal values are 0 to 3, which
  `Instr.wellFormed` checks (log 11). -/
  | digestb (n : BitVec 3)
  /-- `SIZE` (R71, R124). -/
  | size
  /-- `BLKSZ` (R72, R125). -/
  | blksz
deriving DecidableEq, Repr

end Sys2Proof
end

