-- ==== Sys2Proof/WellFormed.lean ====
section
/-! DEFINITION. Which syntax terms are commands of the spec (00_scope.md R18, 30_encoding.md R62). The operand types leave one
check: the byte index of `DIGESTB`. -/

namespace Sys2Proof

/-- A term the encoding of R66 to R72 admits. `DIGESTB` has legal values 0 to 3, so `N[2]` must be 0 (R62, R70). -/
def Instr.wellFormed : Instr → Bool
  | .init _ => true
  | .reset => true
  | .append0 => true
  | .append1 _ => true
  | .append2 _ _ => true
  | .append3 _ _ _ => true
  | .append4 _ _ _ _ => true
  | .digest => true
  | .digestb n => decide (n.toNat ≤ 3)
  | .size => true
  | .blksz => true

end Sys2Proof
end

