-- ==== Sys2Proof/Decode.lean ====
section
/-! DEFINITION. Fields of a command word, the decoder (30_encoding.md R75), ill-formedness as R74 lists it, the encoder
(R66 to R72), and the rows of spec/opcode_table.json. -/

namespace Sys2Proof

/-- `OPC = cmd[63:56]` (R60). -/
def opcField (w : Command) : BitVec 8 := w.extractLsb' 56 8

/-- `RSV = cmd[55:35]` (R61). -/
def rsvField (w : Command) : BitVec 21 := w.extractLsb' 35 21

/-- `N = cmd[34:32]` (R62). -/
def nField (w : Command) : BitVec 3 := w.extractLsb' 32 3

/-- `DATA = cmd[31:0]` (R63). -/
def dataField (w : Command) : Word := w.extractLsb' 0 32

/-- `lane_j(D) = D[8j+7:8j]` (R13). -/
def lane (j : Nat) (d : Word) : Byte := d.extractLsb' (8 * j) 8

/-- `D[31:8n] == 0`: every lane at or above `n` is zero (R63, R68). -/
def upperLanesZero (n : Nat) (d : Word) : Bool := d >>> (8 * n) == 0#32

/-- `zext_32` of one byte (R13). -/
def zext32 (b : Byte) : Word := b.setWidth 32

/-- `b[0] | b[1]<<8 | b[2]<<16 | ...`: byte `i` in lane `i` (R44, R79; the tail loop of R96). -/
def packLanes (bs : List Byte) : Word :=
  bs.zipIdx.foldl (fun t p => t ||| (zext32 p.1 <<< (8 * p.2))) 0#32

/-- The `APPEND` line of the decoder: `n <= 4 and (n == 4 or d[31:8n] == 0)` (R75), and the bytes `lane_j` for `j < n` (R73). -/
def decodeAppend (n : BitVec 3) (d : Word) : Option Instr :=
  match n.toNat with
  | 0 => if upperLanesZero 0 d then some .append0 else none
  | 1 => if upperLanesZero 1 d then some (.append1 (lane 0 d)) else none
  | 2 => if upperLanesZero 2 d then some (.append2 (lane 0 d) (lane 1 d)) else none
  | 3 => if upperLanesZero 3 d then some (.append3 (lane 0 d) (lane 1 d) (lane 2 d)) else none
  | 4 => some (.append4 (lane 0 d) (lane 1 d) (lane 2 d) (lane 3 d))
  | _ => none

/-- The decoder, total on all 2^64 words; `none` is ILLEGAL (R75). -/
def decode (w : Command) : Option Instr :=
  if rsvField w ≠ 0#21 then none else
  match (opcField w).toNat with
  | 0x01 => if nField w = 0#3 then some (.init (dataField w)) else none
  | 0x02 => if nField w = 0#3 ∧ dataField w = 0#32 then some .reset else none
  | 0x03 => decodeAppend (nField w) (dataField w)
  | 0x04 => if nField w = 0#3 ∧ dataField w = 0#32 then some .digest else none
  | 0x05 => if (nField w).toNat ≤ 3 ∧ dataField w = 0#32 then some (.digestb (nField w)) else none
  | 0x06 => if nField w = 0#3 ∧ dataField w = 0#32 then some .size else none
  | 0x07 => if nField w = 0#3 ∧ dataField w = 0#32 then some .blksz else none
  | _ => none

/-- Ill-formedness, the seven conditions of R74 in the rule's own order. It is written from R74 alone and is no part of the decoder. -/
def illFormed (w : Command) : Bool :=
  decide (¬ (1 ≤ (opcField w).toNat ∧ (opcField w).toNat ≤ 7)) ||
  decide (rsvField w ≠ 0#21) ||
  (decide ((opcField w).toNat ∈ [0x01, 0x02, 0x04, 0x06, 0x07]) && decide (nField w ≠ 0#3)) ||
  (decide ((opcField w).toNat ∈ [0x02, 0x04, 0x05, 0x06, 0x07]) && decide (dataField w ≠ 0#32)) ||
  (decide ((opcField w).toNat = 0x03) && decide (4 < (nField w).toNat)) ||
  (decide ((opcField w).toNat = 0x03) && decide ((nField w).toNat < 4) && !upperLanesZero (nField w).toNat (dataField w)) ||
  (decide ((opcField w).toNat = 0x05) && decide (3 < (nField w).toNat))

/-- A command word from its fields, each at its place, `RSV = 0` (R59, R61). -/
def commandWord (opc : BitVec 8) (n : BitVec 3) (data : Word) : Command :=
  (opc.setWidth 64 <<< 56) ||| (n.setWidth 64 <<< 32) ||| data.setWidth 64

/-- The word of a command (R66 to R72, R79). -/
def encode : Instr → Command
  | .init seed => commandWord 0x01#8 0#3 seed
  | .reset => commandWord 0x02#8 0#3 0#32
  | .append0 => commandWord 0x03#8 0#3 (packLanes [])
  | .append1 b0 => commandWord 0x03#8 1#3 (packLanes [b0])
  | .append2 b0 b1 => commandWord 0x03#8 2#3 (packLanes [b0, b1])
  | .append3 b0 b1 b2 => commandWord 0x03#8 3#3 (packLanes [b0, b1, b2])
  | .append4 b0 b1 b2 b3 => commandWord 0x03#8 4#3 (packLanes [b0, b1, b2, b3])
  | .digest => commandWord 0x04#8 0#3 0#32
  | .digestb n => commandWord 0x05#8 n 0#32
  | .size => commandWord 0x06#8 0#3 0#32
  | .blksz => commandWord 0x07#8 0#3 0#32

/-- The mask of a command's row in spec/opcode_table.json (R66 to R72). -/
def rowMask : Instr → Command
  | .init _ => 0xFFFFFFFF00000000#64
  | .reset => 0xFFFFFFFFFFFFFFFF#64
  | .append0 => 0xFFFFFFFFFFFFFFFF#64
  | .append1 _ => 0xFFFFFFFFFFFFFF00#64
  | .append2 _ _ => 0xFFFFFFFFFFFF0000#64
  | .append3 _ _ _ => 0xFFFFFFFFFF000000#64
  | .append4 _ _ _ _ => 0xFFFFFFFF00000000#64
  | .digest => 0xFFFFFFFFFFFFFFFF#64
  | .digestb _ => 0xFFFFFFFCFFFFFFFF#64
  | .size => 0xFFFFFFFFFFFFFFFF#64
  | .blksz => 0xFFFFFFFFFFFFFFFF#64

/-- The match value of a command's row in spec/opcode_table.json (R66 to R72). -/
def rowMatch : Instr → Command
  | .init _ => 0x0100000000000000#64
  | .reset => 0x0200000000000000#64
  | .append0 => 0x0300000000000000#64
  | .append1 _ => 0x0300000100000000#64
  | .append2 _ _ => 0x0300000200000000#64
  | .append3 _ _ _ => 0x0300000300000000#64
  | .append4 _ _ _ _ => 0x0300000400000000#64
  | .digest => 0x0400000000000000#64
  | .digestb _ => 0x0500000000000000#64
  | .size => 0x0600000000000000#64
  | .blksz => 0x0700000000000000#64

/-- The instruction the decoder reads from a table row's word of `nbits` bits, bit 0 the least significant. Every command is one
64-bit word (R77), so a wider word is none. -/
def decodeTableWord (nbits w : Nat) : Option Instr :=
  if nbits ≤ 64 then decode (BitVec.ofNat 64 (w % 2 ^ nbits)) else none

end Sys2Proof
end

