-- ==== Sys2Proof/Machine/State.lean ====
section
/-! DEFINITION. The architectural state of one instance (10_state.md R23), the state of its ports (70_reset_and_hazards.md), the
reasons a step can stop, and the state after power-on reset. -/

namespace Sys2Proof.Machine

/-- The two logical modes (R31, D24): EMPTY = 0, ACCUMULATING = 1. No command reads the mode. -/
inductive Mode where
  | empty
  | accumulating
deriving DecidableEq, Repr

/-- The status of a response (R64, R127). The reserved code 0b11 is never produced, so it has no constructor (U4). -/
inductive Status where
  | ok
  | illegalEncoding
  | notConstructed
deriving DecidableEq, Repr

/-- A response: `resp_status` and `resp_data` (R64). -/
structure Response where
  status : Status
  data : Word
deriving DecidableEq, Repr

/-- The architectural state `S` of one instance, field by field as R23 lists it. -/
structure Instance where
  /-- A hasher object exists (R24). -/
  constructed : Bool
  /-- The value captured by `INIT` (R25). -/
  seed : Word
  /-- The accumulator, updated once per complete block (R26). -/
  runningHash : Word
  /-- The 0 to 3 leftover bytes, the earliest in the lowest lane (R28). -/
  pendingWord : Word
  /-- How many bytes `pendingWord` holds, 0 to 3 (R27). -/
  pendingCount : Fin 4
  /-- Bytes appended since `INIT` or `RESET`, modulo 2^TB_W (R29). -/
  totalBytes : ByteCount
  /-- The cached finalized hash (R30). -/
  lastDigest : Word
  /-- EMPTY or ACCUMULATING (R31). -/
  mode : Mode
deriving DecidableEq, Repr

/-- One thing tried at a rising edge of `clk` (R143, R151, R152, R146; log 3). -/
inductive PortEvent where
  /-- The command channel is sampled with `rst_n = 1`: a transfer happens if `cmd_valid` and `cmd_ready` (R151). -/
  | cmdEdge
  /-- The host has `resp_ready = 1`: a transfer happens if `resp_valid` (R152). -/
  | respEdge
  /-- `rst_n = 0` (R146). -/
  | resetEdge
deriving DecidableEq, Repr

/-- Why a step stops with a fault. The spec has no trap, no fault and no fatal condition (R130, R132, R136), so there is no
constructor: nothing raises a fault. Safe: the block answers every command. -/
inductive Fault where
deriving DecidableEq, Repr

/-- Why a step is refused. -/
inductive Refusal where
  /-- Raised only by an arm of `exec` whose instruction has no meaning yet; every arm has one, so no step raises it. Safe: the
  model would stop where the block goes on. -/
  | notModelled (mnemonic : String)
deriving DecidableEq, Repr

/-- The block with its ports, as plain data. -/
structure State where
  /-- The architectural state of the instance (R23). -/
  inst : Instance
  /-- The words the host presents on the command channel, the head on `cmd` with `cmd_valid = 1` (R143, R151). -/
  commands : List Command
  /-- What is tried at the coming rising edges, in order (log 3). -/
  edges : List PortEvent
  /-- Responses of accepted commands not yet taken, oldest first; the head is on the response port with `resp_valid = 1` (R152). -/
  outstanding : List Response
  /-- Responses the host has taken, oldest first (R157; the model's own record, log 3). -/
  taken : List Response
  /-- How many times `rst_n` was asserted in this run: the model's own counter behind the free values of R39 (log 2). -/
  draws : Nat
deriving DecidableEq, Repr

/-- Right after power-on reset (R39, R146): `constructed = 0`, `resp_valid = 0`, nothing accepted. The other instance fields are
UNSPECIFIED; their zeros here are the model's DESIGN CHOICE (log 1), and `draws = 0` is too (log 2). -/
def State.reset : State where
  inst :=
    { constructed := false, seed := 0, runningHash := 0, pendingWord := 0, pendingCount := 0, totalBytes := 0, lastDigest := 0,
      mode := .empty }
  commands := []
  edges := []
  outstanding := []
  taken := []
  draws := 0

end Sys2Proof.Machine
end

