-- ==== Sys2Proof/Machine/Flags.lean ====
section
/-! DEFINITION. The block has no flags (10_state.md R22). Its only condition indication is the status of each response:
the codes (60_exceptions.md R127) and which command can get which status (R128, R129). -/

namespace Sys2Proof.Machine

/-- `resp_status[1:0]` (R64, R127). -/
def statusCode : Status → BitVec 2
  | .ok => 0b00#2
  | .illegalEncoding => 0b01#2
  | .notConstructed => 0b10#2

/-- The `mode` bit: EMPTY = 0, ACCUMULATING = 1 (R23, R31). -/
def modeBit : Mode → BitVec 1
  | .empty => 0#1
  | .accumulating => 1#1

/-- The NOT_CONSTRUCTED column of R128's table, and R24: the commands that need a hasher object. -/
def needsObject : Instr → Bool
  | .init _ => false
  | .reset => true
  | .append0 => true
  | .append1 _ => true
  | .append2 _ _ => true
  | .append3 _ _ _ => true
  | .append4 _ _ _ _ => true
  | .digest => true
  | .digestb _ => true
  | .size => false
  | .blksz => false

/-- The status R129 gives a command word: ill-formedness first, then the missing object. It is the rule's table for the
statements; the decoder and the meanings do not read it. -/
def priorityStatus (w : Command) (constructed : Bool) : Status :=
  if illFormed w then .illegalEncoding
  else if (decode w).any needsObject && !constructed then .notConstructed
  else .ok

end Sys2Proof.Machine
end

