-- ==== Sys2Proof/Machine/Datapath.lean ====
section
/-! DEFINITION. The pure datapath functions: `murmur3_block_mixer`, `murmur3_finalizer` and the whole-stream reference
(40_datapath.md R83 to R104). None reads or writes state (R88, R94, R95). -/

namespace Sys2Proof.Machine

/-- `c1` (R83). -/
def c1 : Word := 0xcc9e2d51#32
/-- `c2` (R83). -/
def c2 : Word := 0x1b873593#32
/-- `r1`, a rotate amount (R83). -/
def r1 : Nat := 15
/-- `r2`, a rotate amount (R83). -/
def r2 : Nat := 13
/-- `m` (R83). -/
def mConst : Word := 5#32
/-- `n` (R83). -/
def nConst : Word := 0xe6546b64#32
/-- `f1` (R19, R83). -/
def f1 : Word := 0x85ebca6b#32
/-- `f2` (R19, R83). -/
def f2 : Word := 0xc2b2ae35#32

/-- `x * c` for a constant `c`: the low 32 bits of the product (R12, R97). The product is commutative; the constant stands first so that
Lean's kernel never unrolls it when it compares symbolic terms. -/
def mul32 (x c : Word) : Word := c * x

/-- `x + c` for a constant `c`, modulo 2^32 (R12, R97), the constant first for the same reason. -/
def add32 (x c : Word) : Word := c + x

/-- `ROTL32(x, r)` for `0 < r < 32` (R84). -/
def rotl32 (x : Word) (r : Nat) : Word := (x <<< r) ||| (x >>> (32 - r))

/-- Block word assembly, little-endian (R46, R85). -/
def blockWord (b0 b1 b2 b3 : Byte) : Word :=
  zext32 b0 ||| (zext32 b1 <<< 8) ||| (zext32 b2 <<< 16) ||| (zext32 b3 <<< 24)

/-- `MixK`, stages 1 to 3 of the block mixer (R86). -/
def mixK (k : Word) : Word := mul32 (rotl32 (mul32 k c1) r1) c2

/-- `BlockMix`, the output `h_out` of `murmur3_block_mixer` for `h_in`, `k_in` (R87, R88). -/
def blockMix (h k : Word) : Word := add32 (mul32 (rotl32 (h ^^^ mixK k) r2) mConst) nConst

/-- `TailMix` (R90). -/
def tailMix (t : Word) : Word := mixK t

/-- `x ^ (x >> s)`, a logical shift (R91, R100). -/
def xorShift (x : Word) (s : Nat) : Word := x ^^^ (x >>> s)

/-- `FMix`, the avalanche; the middle shift is 13, decimal (R91, 90_conflicts.md C1). -/
def fMix (h : Word) : Word := xorShift (mul32 (xorShift (mul32 (xorShift h 16) f1) 13) f2) 16

/-- The output `digest_out` of `murmur3_finalizer` for `h_in`, `t_in`, `len_in[31:0]` (R94). -/
def finalizer (h t len : Word) : Word := fMix (h ^^^ tailMix t ^^^ len)

/-- `tb[31:0]` (R93). -/
def lowCount (tb : ByteCount) : Word := tb.extractLsb' 0 32

/-- `Finalize(h, t, tb)`: only the low 32 bits of the byte count enter the hash (R93). -/
def finalize (h t : Word) (tb : ByteCount) : Word := finalizer h t (lowCount tb)

/-- `MixAll` over the complete blocks of a byte string (R96); bytes that complete no block are left out. -/
def mixAll : Word → List Byte → Word
  | h, b0 :: b1 :: b2 :: b3 :: rest => mixAll (blockMix h (blockWord b0 b1 b2 b3)) rest
  | h, _ => h

/-- `Murmur3_32(s, b)`, the one-shot hash (R96). -/
def murmur3 (s : Word) (bs : List Byte) : Word :=
  let q := bs.length / 4
  finalize (mixAll s (bs.take (4 * q))) (packLanes (bs.drop (4 * q))) (BitVec.ofNat 64 bs.length)

end Sys2Proof.Machine
end

