-- ==== Sys2Proof/Machine/Operands.lean ====
section
/-! DEFINITION. The operands of the commands and the data they answer with (30_encoding.md R73, R65). Every operand is an immediate
field of the command word; none names a register or an address (R20, R73). -/

namespace Sys2Proof.Machine

/-- The bytes a command appends to the stream, in absorption order (R44, R73). -/
def appendedBytes : Instr → List Byte
  | .init _ => []
  | .reset => []
  | .append0 => []
  | .append1 b0 => [b0]
  | .append2 b0 b1 => [b0, b1]
  | .append3 b0 b1 b2 => [b0, b1, b2]
  | .append4 b0 b1 b2 b3 => [b0, b1, b2, b3]
  | .digest => []
  | .digestb _ => []
  | .size => []
  | .blksz => []

/-- The index operand of `DIGESTB`, `I = N[1:0]` (R70, R73). -/
def digestIndex (n : BitVec 3) : Nat := (n.extractLsb' 0 2).toNat

/-- Byte `I` of the big-endian serialization: `last_digest[hi:hi-7]` with `hi = 31 - 8*I` (R48, R122). -/
def digestByte (i : Nat) (d : Word) : Byte := d.extractLsb' (31 - 8 * i - 7) 8

/-- The four bytes of the serialized digest, most significant first (R48). -/
def serializeDigest (d : Word) : List Byte := [digestByte 0 d, digestByte 1 d, digestByte 2 d, digestByte 3 d]

/-- What `SIZE` answers: the digest width in bytes (R7, R35, R124). -/
def digestSize : Word := 4#32

/-- What `BLKSZ` answers: no preferred write granularity (R7, R35, R125). -/
def blockSize : Word := 1#32

end Sys2Proof.Machine
end

