-- ==== Sys2Proof/Machine/Ops.lean ====
section
/-! DEFINITION. The shared operations over the state: completing a command (00_scope.md R15), the error response that takes the
place of an exception (60_exceptions.md R130), byte absorption and digest update (41_construct_append.md R105, R108), the object
as `INIT` leaves it (R106), and power-on reset (70_reset_and_hazards.md R146). -/

namespace Sys2Proof.Machine

/-- What a step answers on this machine. -/
abbrev Result := Host.Outcome State Fault Refusal

/-- `respond(status, data)`: completes the current command with one response (R15, R64). -/
def respond (status : Status) (data : Word) (s : State) : Result :=
  .next { s with outstanding := s.outstanding ++ [{ status := status, data := data }] }

/-- The spec's `raise`: `respond(<STATUS>, 0)` with the instance unchanged. No state is saved and nothing is jumped to, so there is no
return either (R15, R130, R131). -/
def respondError (status : Status) (s : State) : Result := respond status 0#32 s

/-- The guard of `RESET`, `APPEND`, `DIGEST` and `DIGESTB`: NOT_CONSTRUCTED unless a hasher object exists (R24, R128). -/
def withObject (body : State → Result) (s : State) : Result :=
  if s.inst.constructed then body s else respondError .notConstructed s

/-- `AbsorbByte(b)` (R105): the byte joins the pending word; a fourth byte runs the block mixer on the updated word. -/
def absorbByte (b : Byte) (S : Instance) : Instance :=
  let word := S.pendingWord ||| (zext32 b <<< (8 * S.pendingCount.val))
  if S.pendingCount = 3 then
    { S with
      totalBytes := S.totalBytes + 1#64
      runningHash := blockMix S.runningHash word
      pendingWord := 0#32
      pendingCount := 0 }
  else
    { S with
      totalBytes := S.totalBytes + 1#64
      pendingWord := word
      pendingCount := S.pendingCount + 1 }

/-- The byte absorptions of one `APPEND`, in lane order (R44, R109). -/
def absorbBytes (bs : List Byte) (S : Instance) : Instance := bs.foldl (fun S b => absorbByte b S) S

/-- `UpdateDigest` (R108): writes only `last_digest`. -/
def updateDigest (S : Instance) : Instance :=
  { S with lastDigest := finalize S.runningHash S.pendingWord S.totalBytes }

/-- The instance after an `APPEND` of the bytes `bs` on a constructed instance (R109): nothing for the empty chunk (R112). -/
def appendChunk (bs : List Byte) (S : Instance) : Instance :=
  if bs.isEmpty then S else { updateDigest (absorbBytes bs S) with mode := .accumulating }

/-- `APPEND` of the bytes `bs` (R109): the response data is the byte count consumed. -/
def appendBytes (bs : List Byte) (s : State) : Result :=
  withObject (fun s => respond .ok (BitVec.ofNat 32 bs.length) { s with inst := appendChunk bs s.inst }) s

/-- The instance `INIT seed` leaves (R40, R106). -/
def construct (seed : Word) : Instance where
  constructed := true
  seed := seed
  runningHash := seed
  pendingWord := 0#32
  pendingCount := 0
  totalBytes := 0#64
  lastDigest := finalize seed 0#32 0#64
  mode := .empty

/-- The instance `RESET` leaves, every pending byte and the count cleared (R116, R118). -/
def restart (S : Instance) : Instance :=
  { S with
    runningHash := S.seed
    pendingWord := 0#32
    pendingCount := 0
    totalBytes := 0#64
    mode := .empty
    lastDigest := finalize S.seed 0#32 0#64 }

/-- The UNSPECIFIED fields of the n-th power-on reset, each a free value (R39, U3; log 2). The values depend on `n` alone, so two instances with
equal `draws` get equal ones, where U3 leaves each instance's values free: DESIGN CHOICE, unsafe for a claim that compares them (log 13). -/
def powerOnInstance (n : Nat) : Instance where
  constructed := false
  seed := Config.powerOnSeed n
  runningHash := Config.powerOnRunningHash n
  pendingWord := Config.powerOnPendingWord n
  pendingCount := Config.powerOnPendingCount n
  totalBytes := Config.powerOnTotalBytes n
  lastDigest := Config.powerOnLastDigest n
  mode := if Config.powerOnAccumulating n then .accumulating else .empty

/-- Power-on reset at a rising edge with `rst_n = 0` (R146): `constructed` cleared, every untaken response discarded, no command
accepted; the other fields become free values. What the host presents and has already taken is the host's and stays. -/
def powerOnReset (s : State) : Result :=
  .next { s with inst := powerOnInstance s.draws, outstanding := [], draws := s.draws + 1 }

end Sys2Proof.Machine
end

