-- ==== Sys2Proof/Machine/ConstructAppend.lean ====
section
/-! DEFINITION. The meanings of `INIT` and the five `APPEND` rows (41_construct_append.md R106, R109). -/

namespace Sys2Proof.Machine

/-- `INIT`, legal in every state; on a constructed instance it replaces the object (R106, R107). -/
def execInit (seed : Word) (s : State) : Result := respond .ok 0#32 { s with inst := construct seed }

/-- `APPEND {}`: a well-formed command with no effect on the instance (R109, R112). -/
def execAppend0 (s : State) : Result := appendBytes [] s

/-- `APPEND {b0}` (R109). -/
def execAppend1 (b0 : Byte) (s : State) : Result := appendBytes [b0] s

/-- `APPEND {b0, b1}` (R109). -/
def execAppend2 (b0 b1 : Byte) (s : State) : Result := appendBytes [b0, b1] s

/-- `APPEND {b0, b1, b2}` (R109). -/
def execAppend3 (b0 b1 b2 : Byte) (s : State) : Result := appendBytes [b0, b1, b2] s

/-- `APPEND {b0, b1, b2, b3}` (R109). -/
def execAppend4 (b0 b1 b2 b3 : Byte) (s : State) : Result := appendBytes [b0, b1, b2, b3] s

end Sys2Proof.Machine
end

