-- ==== Sys2Proof/Machine/ResetDigestQuery.lean ====
section
/-! DEFINITION. The meanings of `RESET`, `DIGEST`, `DIGESTB`, `SIZE` and `BLKSZ` (42_reset_digest_query.md R116 to R125). -/

namespace Sys2Proof.Machine

/-- `RESET` (R116): the seed is kept, everything else restarts. -/
def execReset (s : State) : Result :=
  withObject (fun s => respond .ok 0#32 { s with inst := restart s.inst }) s

/-- `DIGEST` (R120): a pure read. -/
def execDigest (s : State) : Result := withObject (fun s => respond .ok s.inst.lastDigest s) s

/-- `DIGESTB` (R122): one digest byte, zero-extended. A field `N` of 4 to 7 is ill-formed and answers ILLEGAL_ENCODING before the object
is looked at (R122's exceptions, R129). -/
def execDigestb (n : BitVec 3) (s : State) : Result :=
  if n.toNat ≤ 3 then withObject (fun s => respond .ok (zext32 (digestByte (digestIndex n) s.inst.lastDigest)) s) s
  else respondError .illegalEncoding s

/-- `SIZE`: 4 in every state (R124). -/
def execSize (s : State) : Result := respond .ok digestSize s

/-- `BLKSZ`: 1 in every state (R125). -/
def execBlksz (s : State) : Result := respond .ok blockSize s

end Sys2Proof.Machine
end

