-- ==== Sys2Proof/Machine/Dispatch.lean ====
section
/-! DEFINITION. One arm per row of the opcode table (30_encoding.md R65). -/

namespace Sys2Proof.Machine

def exec (i : Instr) (s : State) : Host.Outcome State Fault Refusal :=
  match i with
  | .init seed => Sys2Proof.Machine.execInit seed s
  | .reset => Sys2Proof.Machine.execReset s
  | .append0 => Sys2Proof.Machine.execAppend0 s
  | .append1 b0 => Sys2Proof.Machine.execAppend1 b0 s
  | .append2 b0 b1 => Sys2Proof.Machine.execAppend2 b0 b1 s
  | .append3 b0 b1 b2 => Sys2Proof.Machine.execAppend3 b0 b1 b2 s
  | .append4 b0 b1 b2 b3 => Sys2Proof.Machine.execAppend4 b0 b1 b2 b3 s
  | .digest => Sys2Proof.Machine.execDigest s
  | .digestb n => Sys2Proof.Machine.execDigestb n s
  | .size => Sys2Proof.Machine.execSize s
  | .blksz => Sys2Proof.Machine.execBlksz s

end Sys2Proof.Machine
end

