-- ==== Sys2Proof/Machine/Ports.lean ====
section
/-! DEFINITION. The two channels of the block and power-on reset, one port event at a time (70_reset_and_hazards.md R143, R146, R151 to
R153), untimed (R155). -/

namespace Sys2Proof.Machine

/-- `cmd_valid` and `cmd`: the word the host presents, if any (R143, R151). -/
def cmdPort (s : State) : Option Command := s.commands.head?

/-- `cmd_ready`: fewer than `MAX_OUTSTANDING` accepted commands have an untaken response (R142, R152). With none outstanding the block is
ready whatever the limit, since it is at least 1. -/
def cmdReady (s : State) : Bool :=
  match s.outstanding with
  | [] => true
  | r :: rs =>
    match Config.maxOutstanding with
    | none => true
    | some k => decide ((r :: rs).length < k)

/-- `resp_valid`, `resp_status` and `resp_data`: the oldest untaken response, if any (R143, R152). -/
def respPort (s : State) : Option Response := s.outstanding.head?

/-- Running one accepted word: an ill-formed word answers ILLEGAL_ENCODING and changes nothing, a command executes (R74, R129). -/
def acceptCommand (w : Command) (s : State) : Result :=
  match decode w with
  | some i => exec i s
  | none => respondError .illegalEncoding s

/-- The command channel at one edge (R151): the presented word is accepted if the block is ready; otherwise nothing is transferred, and
the host keeps presenting it. -/
def commandEdge (s : State) : Result :=
  match s.commands with
  | [] => .next s
  | w :: ws => if cmdReady s then acceptCommand w { s with commands := ws } else .next s

/-- The response channel at one edge with `resp_ready = 1` (R152): the oldest response is taken if there is one. -/
def responseEdge (s : State) : Result :=
  match s.outstanding with
  | [] => .next s
  | r :: rs => .next { s with outstanding := rs, taken := s.taken ++ [r] }

/-- One port event. -/
def portStep (e : PortEvent) (s : State) : Result :=
  match e with
  | .cmdEdge => commandEdge s
  | .respEdge => responseEdge s
  | .resetEdge => powerOnReset s

/-- The observation of a run: every response so far, in order (R157). -/
def observation (s : State) : List Response := s.taken ++ s.outstanding

/-- A host that presents the words `ws` in order and takes each response before its next command (log 6). -/
def offerCommands (ws : List Command) (s : State) : State :=
  { s with commands := s.commands ++ ws, edges := s.edges ++ ws.flatMap (fun _ => [.cmdEdge, .respEdge]) }

/-- Makes the very next step accept exactly the word `w`: it is presented first, the next edge is a command edge, and the host has taken
every waiting response, so that the block is ready (log 6). -/
def presentNext (w : Command) (s : State) : State :=
  { s with
    commands := w :: s.commands
    edges := .cmdEdge :: s.edges
    outstanding := []
    taken := s.taken ++ s.outstanding }

end Sys2Proof.Machine
end

