-- ==== Sys2Proof/Machine/Step.lean ====
section
/-! DEFINITION. One step of the machine: the next port event, or nothing when none is to come (20_memory.md R50, 60_exceptions.md R141,
70_reset_and_hazards.md R155). -/

namespace Sys2Proof.Machine

/-- One step. With no port event to come the state is retained unchanged: "time changes nothing" (R141; log 5). -/
def step (s : State) : Host.Outcome State Fault Refusal :=
  match s.edges with
  | [] => .next s
  | e :: es => portStep e { s with edges := es }

/-- `s` with the command word of number `w` presented so that the very next step accepts it (log 6). A command is one 64-bit word (R77). -/
def State.withFetchWord (s : State) (nbits w : Nat) : State := presentNext (BitVec.ofNat 64 (w % 2 ^ nbits)) s

end Sys2Proof.Machine
end

