-- ==== Sys2Proof/Machine/Reference.lean ====
section
/-! DEFINITION. Several commands in a row, and the reference the incremental machine is held against: a hasher that keeps the ghost
stream itself and hashes all of it at each query (10_state.md R34, 40_datapath.md R96, 42_reset_digest_query.md R121). No part of
the machine reads it. -/

namespace Sys2Proof.Machine

/-- The commands `is` executed one after the other (R50, R55). -/
def execAll : List Instr → State → Result
  | [], s => .next s
  | i :: is, s =>
    match exec i s with
    | .next t => execAll is t
    | .fault f => .fault f
    | .refused r => .refused r

/-- `k` steps of the machine, stopping at a fault or a refusal. -/
def runSteps : Nat → State → Result
  | 0, s => .next s
  | k + 1, s =>
    match step s with
    | .next t => runSteps k t
    | .fault f => .fault f
    | .refused r => .refused r

/-- The seed and the stream of bytes absorbed since the last `INIT` or `RESET`; `none` when no object exists (R34, R43, R24). -/
abbrev Ghost := Option (Word × List Byte)

/-- Bytes at the end of the stream; with no object there is no stream. -/
def ghostAppend (bs : List Byte) (g : Ghost) : Ghost := g.map (fun p => (p.1, p.2 ++ bs))

/-- What a command does to the seed and the stream (R43, R106, R116, R109). -/
def ghostStep : Instr → Ghost → Ghost
  | .init seed, _ => some (seed, [])
  | .reset, g => g.map (fun p => (p.1, []))
  | .append0, g => ghostAppend [] g
  | .append1 b0, g => ghostAppend [b0] g
  | .append2 b0 b1, g => ghostAppend [b0, b1] g
  | .append3 b0 b1 b2, g => ghostAppend [b0, b1, b2] g
  | .append4 b0 b1 b2 b3, g => ghostAppend [b0, b1, b2, b3] g
  | .digest, g => g
  | .digestb _, g => g
  | .size, g => g
  | .blksz, g => g

/-- The stream after a list of commands. -/
def ghostAll (is : List Instr) (g : Ghost) : Ghost := is.foldl (fun g i => ghostStep i g) g

/-- The response of a command that needs an object: the data where there is one, else NOT_CONSTRUCTED (R128). -/
def ghostAnswer (data : Word × List Byte → Word) (g : Ghost) : Response :=
  match g with
  | none => ⟨.notConstructed, 0#32⟩
  | some p => ⟨.ok, data p⟩

/-- The response of a well-formed command, hashing the whole stream afresh for the digest (R65, R121, R128). -/
def ghostResponse : Instr → Ghost → Response
  | .init _, _ => ⟨.ok, 0#32⟩
  | .reset, g => ghostAnswer (fun _ => 0#32) g
  | .append0, g => ghostAnswer (fun _ => 0#32) g
  | .append1 _, g => ghostAnswer (fun _ => 1#32) g
  | .append2 _ _, g => ghostAnswer (fun _ => 2#32) g
  | .append3 _ _ _, g => ghostAnswer (fun _ => 3#32) g
  | .append4 _ _ _ _, g => ghostAnswer (fun _ => 4#32) g
  | .digest, g => ghostAnswer (fun p => murmur3 p.1 p.2) g
  | .digestb n, g => ghostAnswer (fun p => zext32 (digestByte (digestIndex n) (murmur3 p.1 p.2))) g
  | .size, _ => ⟨.ok, 4#32⟩
  | .blksz, _ => ⟨.ok, 1#32⟩

/-- The responses the reference gives to a sequence of command words (R129, R157). -/
def ghostRun : List Command → Ghost → List Response
  | [], _ => []
  | w :: ws, g =>
    match decode w with
    | some i => ghostResponse i g :: ghostRun ws (ghostStep i g)
    | none => ⟨.illegalEncoding, 0#32⟩ :: ghostRun ws g

/-- The stream after a sequence of command words; an ill-formed word changes nothing (R74). -/
def ghostWords (ws : List Command) (g : Ghost) : Ghost := ghostAll (ws.filterMap decode) g

/-- Every field of a constructed instance as the stream fixes it (R34, R28, R31, R43). -/
def instanceOfStream (seed : Word) (bs : List Byte) : Instance where
  constructed := true
  seed := seed
  runningHash := mixAll seed (bs.take (4 * (bs.length / 4)))
  pendingWord := packLanes (bs.drop (4 * (bs.length / 4)))
  pendingCount := ⟨bs.length % 4, Nat.mod_lt _ (by decide)⟩
  totalBytes := BitVec.ofNat 64 bs.length
  lastDigest := murmur3 seed bs
  mode := if bs.isEmpty then .empty else .accumulating

/-- The instance agrees with the seed and the stream; without an object nothing is said of the other fields (R34, R39). -/
def matchesGhost (S : Instance) (g : Ghost) : Prop :=
  match g with
  | none => S.constructed = false
  | some p => S = instanceOfStream p.1 p.2

/-- An `APPEND` of any byte count. -/
def isAppend : Instr → Bool
  | .init _ => false
  | .reset => false
  | .append0 => true
  | .append1 _ => true
  | .append2 _ _ => true
  | .append3 _ _ _ => true
  | .append4 _ _ _ _ => true
  | .digest => false
  | .digestb _ => false
  | .size => false
  | .blksz => false

/-- The query commands (R53, R126). -/
def isQuery : Instr → Bool
  | .init _ => false
  | .reset => false
  | .append0 => false
  | .append1 _ => false
  | .append2 _ _ => false
  | .append3 _ _ _ => false
  | .append4 _ _ _ _ => false
  | .digest => true
  | .digestb _ => true
  | .size => true
  | .blksz => true

end Sys2Proof.Machine
end

