-- ==== Sys2Proof/Machine/Pseudo.lean ====
section
/-! DEFINITION. The pseudo-instructions and the host's side of them (30_encoding.md R80 to R82, 41_construct_append.md R114). -/

namespace Sys2Proof.Machine

/-- The one `APPEND` of a chunk of at most 4 bytes (R79). -/
def appendOf : List Byte → Option Instr
  | [] => some .append0
  | [b0] => some (.append1 b0)
  | [b0, b1] => some (.append2 b0 b1)
  | [b0, b1, b2] => some (.append3 b0 b1 b2)
  | [b0, b1, b2, b3] => some (.append4 b0 b1 b2 b3)
  | _ => none

/-- `APPENDS <byte string>`: `ceil(L/4)` commands, four bytes each but the last; nothing for the empty string (R80). -/
def appends : List Byte → List Instr
  | b0 :: b1 :: b2 :: b3 :: rest => .append4 b0 b1 b2 b3 :: appends rest
  | [b0, b1, b2] => [.append3 b0 b1 b2]
  | [b0, b1] => [.append2 b0 b1]
  | [b0] => [.append1 b0]
  | [] => []

/-- The value the source's Append returns: the sum of the response data (R80, R114). -/
def bytesConsumed (rs : List Response) : Nat := (rs.map (fun r => r.data.toNat)).sum

/-- `DIGESTAPPEND` (R81). -/
def digestAppend : List Instr := [.digestb 0#3, .digestb 1#3, .digestb 2#3, .digestb 3#3]

/-- The host's side of `DIGESTAPPEND`: `resp_data[7:0]` of each response, in response order (R81). -/
def hostAppendBytes (buffer : List Byte) (rs : List Response) : List Byte := buffer ++ rs.map (fun r => lane 0 r.data)

/-- `DIGESTAPPEND.W` (R82). -/
def digestAppendW : List Instr := [.digest]

/-- The host's side of `DIGESTAPPEND.W`: the word of each response, most significant byte first (R82). -/
def hostAppendWords (buffer : List Byte) (rs : List Response) : List Byte :=
  buffer ++ rs.flatMap (fun r => [lane 3 r.data, lane 2 r.data, lane 1 r.data, lane 0 r.data])

end Sys2Proof.Machine
end

