-- ==== Sys2Proof/Machine/Assembler.lean ====
section
/-! DEFINITION. The assembler syntax (30_encoding.md R79 to R82): one command a line, numbers hexadecimal with `0x` or decimal, a
comment from `;` to the end of the line. Notation only: it carries no behaviour (92_eei_decisions.md D22; details in log 12). Braces and the quote are
written by their ASCII codes. -/

namespace Sys2Proof.Machine

/-- A token of an assembler line. -/
inductive Token where
  | name (cs : List Char)
  | num (k : Nat)
  | lbrace
  | rbrace
  | comma
  | text (cs : List Char)
  | bad
deriving DecidableEq, Repr

/-- The value of a hexadecimal digit. -/
def hexDigit (c : Char) : Option Nat :=
  let k := c.toNat
  if 48 ≤ k ∧ k ≤ 57 then some (k - 48)
  else if 65 ≤ k ∧ k ≤ 70 then some (k - 55)
  else if 97 ≤ k ∧ k ≤ 102 then some (k - 87)
  else none

/-- A non-empty string of digits in base `base`. -/
def digits (base : Nat) (cs : List Char) : Option Nat :=
  if cs.isEmpty then none else
  cs.foldl (fun acc c =>
    match acc, hexDigit c with
    | some a, some d => if d < base then some (base * a + d) else none
    | _, _ => none) (some 0)

/-- A word of the line: a number if it begins with a decimal digit, otherwise a name. -/
def wordToken : List Char → Token
  | '0' :: 'x' :: cs => match digits 16 cs with | some k => .num k | none => .bad
  | c :: cs =>
    if 48 ≤ c.toNat ∧ c.toNat ≤ 57 then (match digits 10 (c :: cs) with | some k => .num k | none => .bad)
    else .name (c :: cs)
  | [] => .bad

/-- The lexer's state: the word in progress (last character first), inside a string literal, inside a comment, the tokens so far (last
first). -/
structure Lexer where
  cur : List Char
  inText : Bool
  inComment : Bool
  out : List Token

/-- Ends the word in progress. -/
def lexFlush (l : Lexer) : Lexer :=
  if l.cur.isEmpty then l else { l with cur := [], out := wordToken l.cur.reverse :: l.out }

/-- One character. A `;` inside a string literal is a character of the text and starts no comment: R79 has a comment run from `;` to the end
of the line, R80 has a string literal mean its ASCII bytes, and neither says which prevails (DESIGN CHOICE, log 12). -/
def lexChar (l : Lexer) (c : Char) : Lexer :=
  if l.inComment then l
  else if l.inText then
    (if c.toNat = 34 then { l with cur := [], inText := false, out := .text l.cur.reverse :: l.out }
     else { l with cur := c :: l.cur })
  else if c.toNat = 59 then { lexFlush l with inComment := true }
  else if c.toNat = 34 then { lexFlush l with inText := true }
  else if c.toNat = 32 ∨ c.toNat = 9 then lexFlush l
  else if c.toNat = 44 then { lexFlush l with out := .comma :: (lexFlush l).out }
  else if c.toNat = 123 then { lexFlush l with out := .lbrace :: (lexFlush l).out }
  else if c.toNat = 125 then { lexFlush l with out := .rbrace :: (lexFlush l).out }
  else { l with cur := c :: l.cur }

/-- The tokens of a line; an unclosed string literal is bad (DESIGN CHOICE, log 12). -/
def lexLine (cs : List Char) : List Token :=
  let l := cs.foldl lexChar { cur := [], inText := false, inComment := false, out := [] }
  if l.inText then [.bad] else (lexFlush l).out.reverse

/-- A byte literal 0x00..0xFF (R79). -/
def byteOf (k : Nat) : Option Byte := if k < 256 then some (BitVec.ofNat 8 k) else none

/-- The bytes of a list whose opening brace and first byte are read: the separators and the rest, up to the closing brace. -/
def bytesAfter : List Token → Option (List Byte)
  | [.rbrace] => some []
  | .comma :: .num k :: rest =>
    match byteOf k, bytesAfter rest with
    | some b, some bs => some (b :: bs)
    | _, _ => none
  | _ => none

/-- The bytes of a list whose opening brace is read. -/
def bytesIn : List Token → Option (List Byte)
  | [.rbrace] => some []
  | .num k :: rest =>
    match byteOf k, bytesAfter rest with
    | some b, some bs => some (b :: bs)
    | _, _ => none
  | _ => none

/-- The ASCII bytes of a string literal (R80). -/
def asciiBytes (cs : List Char) : Option (List Byte) :=
  if cs.all (fun c => c.toNat < 128) then some (cs.map (fun c => BitVec.ofNat 8 c.toNat)) else none

/-- The commands of one line's tokens (R79 to R82); the empty line is no command. -/
def parseLine : List Token → Option (List Instr)
  | [] => some []
  | .name n :: rest =>
    if n = "INIT".toList then
      (match rest with
       | [.num k] => if k < 2 ^ 32 then some [.init (BitVec.ofNat 32 k)] else none
       | _ => none)
    else if n = "RESET".toList then (if rest = [] then some [.reset] else none)
    else if n = "APPEND".toList then
      (match rest with
       | .lbrace :: ts => (bytesIn ts).bind (fun bs => (appendOf bs).map (fun i => [i]))
       | _ => none)
    else if n = "APPENDS".toList then
      (match rest with
       | [.text cs] => (asciiBytes cs).map appends
       | .lbrace :: ts => (bytesIn ts).map appends
       | _ => none)
    else if n = "DIGEST".toList then (if rest = [] then some [.digest] else none)
    else if n = "DIGESTB".toList then
      (match rest with
       | [.num k] => if k ≤ 3 then some [.digestb (BitVec.ofNat 3 k)] else none
       | _ => none)
    else if n = "SIZE".toList then (if rest = [] then some [.size] else none)
    else if n = "BLKSZ".toList then (if rest = [] then some [.blksz] else none)
    else if n = "DIGESTAPPEND".toList then (if rest = [] then some digestAppend else none)
    else if n = "DIGESTAPPEND.W".toList then (if rest = [] then some digestAppendW else none)
    else none
  | _ => none

/-- The command words one line assembles to; `none` is no line of the syntax. -/
def assembleLine (line : List Char) : Option (List Command) := (parseLine (lexLine line)).map (fun is => is.map encode)

/-- The canonical tokens of a command (R79's table). -/
def instrTokens : Instr → List Token
  | .init seed => [.name "INIT".toList, .num seed.toNat]
  | .reset => [.name "RESET".toList]
  | .append0 => [.name "APPEND".toList, .lbrace, .rbrace]
  | .append1 b0 => [.name "APPEND".toList, .lbrace, .num b0.toNat, .rbrace]
  | .append2 b0 b1 => [.name "APPEND".toList, .lbrace, .num b0.toNat, .comma, .num b1.toNat, .rbrace]
  | .append3 b0 b1 b2 =>
    [.name "APPEND".toList, .lbrace, .num b0.toNat, .comma, .num b1.toNat, .comma, .num b2.toNat, .rbrace]
  | .append4 b0 b1 b2 b3 =>
    [.name "APPEND".toList, .lbrace, .num b0.toNat, .comma, .num b1.toNat, .comma, .num b2.toNat, .comma, .num b3.toNat, .rbrace]
  | .digest => [.name "DIGEST".toList]
  | .digestb n => [.name "DIGESTB".toList, .num n.toNat]
  | .size => [.name "SIZE".toList]
  | .blksz => [.name "BLKSZ".toList]

end Sys2Proof.Machine
end

