-- ==== Sys2Proof/Machine/Platform.lean ====
section
/-! DEFINITION. A platform with any number of instances, each with its own state and its own ports (00_scope.md R10,
60_exceptions.md R138). Instances with equal `draws` draw equal free values at a power-on reset: DESIGN CHOICE, log 13. -/

namespace Sys2Proof.Machine

/-- One step of instance `k`; which instance steps is the platform's. An index with no instance steps nothing. -/
def platformStep (k : Nat) (p : List State) : Host.Outcome (List State) Fault Refusal :=
  match p[k]? with
  | none => .next p
  | some s =>
    match step s with
    | .next t => .next (p.set k t)
    | .fault f => .fault f
    | .refused r => .refused r

/-- Steps of the instances that a schedule names, in its order. The schedule is open: claims hold for every one (R58, R138). -/
def platformRun : List Nat → List State → Host.Outcome (List State) Fault Refusal
  | [], p => .next p
  | k :: ks, p =>
    match platformStep k p with
    | .next q => platformRun ks q
    | .fault f => .fault f
    | .refused r => .refused r

end Sys2Proof.Machine
end

