-- ==== Sys2Proof/Safety.lean ====
section
/-! DEFINITION. The invariants of the spec (10_state.md R27, R32, R33) and of the ports (30_encoding.md R64, 70_reset_and_hazards.md
R152), in the terms the statements use. -/

namespace Sys2Proof.Machine

/-- `pending_count == total_bytes mod 4` (R27). -/
def countMatches (S : Instance) : Prop := S.pendingCount.val = S.totalBytes.toNat % 4

/-- Digest consistency (R32). -/
def digestConsistent (S : Instance) : Prop := S.lastDigest = finalize S.runningHash S.pendingWord S.totalBytes

/-- Clean tail: `pending_word[31:8*pending_count] == 0` (R33). -/
def cleanTail (S : Instance) : Prop := S.pendingWord >>> (8 * S.pendingCount.val) = 0#32

/-- EMPTY means no byte appended since the last `INIT` or `RESET`: the object is as `INIT` of its seed leaves it (R31, R40, R41). -/
def emptyIsFresh (S : Instance) : Prop := S.mode = .empty → S = construct S.seed

/-- What holds of the instance whenever a hasher object exists (R27, R32, R33, R31). -/
def instanceInv (S : Instance) : Prop :=
  S.constructed = true → countMatches S ∧ digestConsistent S ∧ cleanTail S ∧ emptyIsFresh S

/-- At most `MAX_OUTSTANDING` responses are untaken, where there is a limit (R152). -/
def outstandingWithin (s : State) : Prop := ∀ k, Config.maxOutstanding = some k → s.outstanding.length ≤ k

/-- `resp_data` is 0 whenever `resp_status != OK` (R64). -/
def errorDataZero (rs : List Response) : Prop := ∀ r ∈ rs, r.status ≠ .ok → r.data = 0#32

/-- The invariant of the whole machine. -/
def stateInv (s : State) : Prop := instanceInv s.inst ∧ outstandingWithin s ∧ errorDataZero (observation s)

/-- The state `s` after a command that leaves the instance `S` and answers `r`: one more response, and nothing else of `s` changed. -/
def answered (s : State) (S : Instance) (r : Response) : State := { s with inst := S, outstanding := s.outstanding ++ [r] }

/-- The commands of a source-faithful host: an `INIT` before any command that needs an object (R135). `made` says whether an object exists
already. -/
def initFirst : Bool → List Instr → Bool
  | _, [] => true
  | made, i :: is =>
    match i with
    | .init _ => initFirst true is
    | i => (made || !needsObject i) && initFirst made is

end Sys2Proof.Machine
end

