-- ==== Sys2Proof/Certificates/Slice0/Obligations.lean ====
section
/-! DEFINITION. The statements about the model, from the numbered rules of spec/. `answered s S r` is `s` with the instance `S` and one more
response `r`, nothing else changed, so an equation with it is a result, a frame and a completion at once. -/

open Sys2Proof Sys2Proof.Machine

/-! ### Encoding -/

/-- Words of 95_test_vectors.md section 2.7 decode to what its table says. -/
def Obligations.SpecWordsDecode : Prop :=
  decode 0x0100000012345678#64 = some (.init 0x12345678#32) ∧
  decode 0x0200000000000000#64 = some .reset ∧
  decode 0x0300000000000000#64 = some .append0 ∧
  decode 0x0300000200006574#64 = some (.append2 0x74#8 0x65#8) ∧
  decode 0x03000004FFFFFFFF#64 = some (.append4 0xFF#8 0xFF#8 0xFF#8 0xFF#8) ∧
  decode 0x0400000000000000#64 = some .digest ∧
  decode 0x0500000300000000#64 = some (.digestb 3#3) ∧
  decode 0x0600000000000000#64 = some .size ∧
  decode 0x0700000000000000#64 = some .blksz ∧
  decode 0x0000000000000000#64 = none ∧
  decode 0x0180000000000000#64 = none ∧
  decode 0x0300000200016574#64 = none ∧
  decode 0x0500000400000000#64 = none

/-- R66 to R72 with R73: a word decodes to a row's command, operands taken from the fields, exactly when the row's match and mask select it. -/
def Obligations.EachRowDecodesBySelection : Prop :=
  ∀ w : Command,
    (w &&& 0xFFFFFFFF00000000#64 = 0x0100000000000000#64 ↔ decode w = some (.init (w.extractLsb' 0 32))) ∧
    (w &&& 0xFFFFFFFFFFFFFFFF#64 = 0x0200000000000000#64 ↔ decode w = some .reset) ∧
    (w &&& 0xFFFFFFFFFFFFFFFF#64 = 0x0300000000000000#64 ↔ decode w = some .append0) ∧
    (w &&& 0xFFFFFFFFFFFFFF00#64 = 0x0300000100000000#64 ↔ decode w = some (.append1 (w.extractLsb' 0 8))) ∧
    (w &&& 0xFFFFFFFFFFFF0000#64 = 0x0300000200000000#64 ↔
      decode w = some (.append2 (w.extractLsb' 0 8) (w.extractLsb' 8 8))) ∧
    (w &&& 0xFFFFFFFFFF000000#64 = 0x0300000300000000#64 ↔
      decode w = some (.append3 (w.extractLsb' 0 8) (w.extractLsb' 8 8) (w.extractLsb' 16 8))) ∧
    (w &&& 0xFFFFFFFF00000000#64 = 0x0300000400000000#64 ↔
      decode w = some (.append4 (w.extractLsb' 0 8) (w.extractLsb' 8 8) (w.extractLsb' 16 8) (w.extractLsb' 24 8))) ∧
    (w &&& 0xFFFFFFFFFFFFFFFF#64 = 0x0400000000000000#64 ↔ decode w = some .digest) ∧
    (w &&& 0xFFFFFFFCFFFFFFFF#64 = 0x0500000000000000#64 ↔ decode w = some (.digestb ((w.extractLsb' 32 2).setWidth 3))) ∧
    (w &&& 0xFFFFFFFFFFFFFFFF#64 = 0x0600000000000000#64 ↔ decode w = some .size) ∧
    (w &&& 0xFFFFFFFFFFFFFFFF#64 = 0x0700000000000000#64 ↔ decode w = some .blksz)

/-- R78 (the spec derives it): each well-formed command has exactly one word, and decoding and encoding are inverse. -/
def Obligations.DecodeAndEncodeAgree : Prop :=
  ∀ (w : Command) (i : Instr), decode w = some i ↔ (i.wellFormed = true ∧ encode i = w)

/-- R74: the decoder rejects exactly the words the seven conditions name; such a word is accepted, answers (ILLEGAL_ENCODING, 0) and changes
no state. -/
def Obligations.IllFormedWordsAnswerIllegal : Prop :=
  ∀ w : Command, (decode w = none ↔ illFormed w = true) ∧
    ∀ (s : State) (es : List PortEvent) (ws : List Command), illFormed w = true → s.edges = .cmdEdge :: es → s.commands = w :: ws →
      cmdReady s = true →
      step s = .next (answered { s with edges := es, commands := ws } s.inst ⟨.illegalEncoding, 0#32⟩)

/-- R75 (its derived clause): a word is ILLEGAL exactly when no row of the table selects it, and no word is selected by two rows. -/
def Obligations.NoWordHasTwoRows : Prop :=
  ∀ w : Command, (decode w = none ↔ ∀ i : Instr, w &&& rowMask i ≠ rowMatch i) ∧
    ∀ i j : Instr, w &&& rowMask i = rowMatch i → w &&& rowMask j = rowMatch j → rowMatch i = rowMatch j ∧ rowMask i = rowMask j

/-- The encoding half of R44, with R73 (derived): the byte list of a decoded `APPEND` word is its lanes 0 to N-1 in this order, and the encoding of
an `APPEND` puts byte `j` of its list in `DATA[8j+7:8j]`. In which order the list is absorbed is `AppendResult`'s. -/
def Obligations.AppendLanesInOrder : Prop :=
  (∀ (w : Command) (i : Instr), decode w = some i → isAppend i = true →
    appendedBytes i = (List.range (nField w).toNat).map (fun j => (dataField w).extractLsb' (8 * j) 8)) ∧
  ∀ (i : Instr) (j : Nat), isAppend i = true → j < (appendedBytes i).length →
    nField (encode i) = BitVec.ofNat 3 (appendedBytes i).length ∧
    (appendedBytes i)[j]? = some ((dataField (encode i)).extractLsb' (8 * j) 8)

/-- R79 (syntax only): the canonical tokens of a well-formed command parse to that command alone. -/
def Obligations.AssemblerReadsEachCommand : Prop :=
  ∀ i : Instr, i.wellFormed = true → parseLine (instrTokens i) = some [i]

/-! ### The step and the ports -/

/-- R151: at an edge where a command is presented and the block is ready, the command is accepted, and the step is `exec` of the decoded
command on the state with the word and the edge consumed. -/
def Obligations.StepRunsDecodedCommand : Prop :=
  ∀ (s : State) (es : List PortEvent) (w : Command) (ws : List Command) (i : Instr), s.edges = .cmdEdge :: es → s.commands = w :: ws →
    cmdReady s = true → decode w = some i → step s = exec i { s with edges := es, commands := ws }

/-- R142, R152, R151: the block is ready exactly while fewer than MAX_OUTSTANDING responses are untaken. At a command edge with a word presented
it accepts the word if it is ready; if not, nothing is transferred and the host keeps presenting the word. The limit is open (log 4). -/
def Obligations.FullBlockHoldsCommand : Prop :=
  (∀ s : State, cmdReady s = true ↔ ∀ k, Config.maxOutstanding = some k → s.outstanding.length < k) ∧
  ∀ (s : State) (es : List PortEvent) (w : Command) (ws : List Command), s.edges = .cmdEdge :: es → s.commands = w :: ws →
    step s = if cmdReady s then acceptCommand w { s with edges := es, commands := ws } else .next { s with edges := es }

/-- R153: a hold for untaken responses lasts until the host takes a response or power-on reset comes: no other step makes a held block ready. One
taken response ends it. -/
def Obligations.HoldEndsWithTakenResponse : Prop :=
  (∀ s t : State, step s = .next t → s.edges.head? ≠ some .respEdge → s.edges.head? ≠ some .resetEdge → cmdReady t = true →
    cmdReady s = true) ∧
  ∀ (s : State) (es : List PortEvent) (r : Response) (rs : List Response), outstandingWithin s → s.edges = .respEdge :: es →
    s.outstanding = r :: rs → ∃ t, step s = .next t ∧ cmdReady t = true ∧ t.commands = s.commands ∧ t.inst = s.inst

/-- R152: a response edge takes the oldest untaken response; with none it transfers nothing. -/
def Obligations.ResponseEdgeTakesOldest : Prop :=
  ∀ (s : State) (es : List PortEvent), s.edges = .respEdge :: es →
    (∀ r rs, s.outstanding = r :: rs →
      respPort s = some r ∧ step s = .next { s with edges := es, outstanding := rs, taken := s.taken ++ [r] }) ∧
    (s.outstanding = [] → respPort s = none ∧ step s = .next { s with edges := es })

/-- R146: power-on reset clears `constructed`, discards every untaken response, accepts no command, and leaves the block ready; nothing is
said of the UNSPECIFIED fields. -/
def Obligations.PowerOnResetClearsObject : Prop :=
  ∀ (s : State) (es : List PortEvent), s.edges = .resetEdge :: es →
    ∃ t, step s = .next t ∧ t.inst.constructed = false ∧ t.outstanding = [] ∧ respPort t = none ∧ cmdReady t = true ∧
      t.commands = s.commands ∧ t.taken = s.taken ∧ t.edges = es

/-- R141: with nothing on the ports the state is retained unchanged; a command edge with no command presented consumes only the edge. The
step that does nothing is the model's form (log 5). -/
def Obligations.IdleKeepsState : Prop :=
  (∀ s : State, s.edges = [] → step s = .next s) ∧
  ∀ (s : State) (es : List PortEvent), s.edges = .cmdEdge :: es → s.commands = [] → step s = .next { s with edges := es }

/-- R39: right after power-on reset there is no object and no response. The values of the other fields in `State.reset` are the model's
choice (log 1), and nothing is said of them. -/
def Obligations.ResetStateHasNoObject : Prop :=
  State.reset.inst.constructed = false ∧ State.reset.outstanding = [] ∧ State.reset.taken = [] ∧ State.reset.commands = [] ∧
  respPort State.reset = none ∧ cmdReady State.reset = true

/-- R152, R55: each step accepts at most the head command, which adds exactly one response at the end of the observation; nothing else changes
the observation but power-on reset, which drops the untaken responses alone. -/
def Obligations.OneResponseEachInOrder : Prop :=
  ∀ s t : State, step s = .next t →
    (t.commands = s.commands ∧ observation t = observation s) ∨
    (∃ w ws r, s.commands = w :: ws ∧ t.commands = ws ∧ t.taken = s.taken ∧ t.outstanding = s.outstanding ++ [r]) ∨
    (s.edges.head? = some .resetEdge ∧ t.commands = s.commands ∧ t.taken = s.taken ∧ t.outstanding = [])

/-- R130, R136, R150: no trap, no fatal condition and no terminal state: every step of every state answers a next state. -/
def Obligations.EveryStepAnswersNext : Prop := ∀ s : State, ∃ t, step s = .next t

/-! ### Responses and errors -/

/-- R64: every accepted word produces exactly one response and nothing else outside the instance changes; the codes are 0b00, 0b01, 0b10 and
never 0b11; the data of an OK response is R65's column, and of any other 0. -/
def Obligations.EveryWordAnsweredOnce : Prop :=
  (statusCode .ok = 0b00#2 ∧ statusCode .illegalEncoding = 0b01#2 ∧ statusCode .notConstructed = 0b10#2) ∧
  ∀ (w : Command) (s : State), ∃ S r, acceptCommand w s = .next (answered s S r) ∧ statusCode r.status ≠ 0b11#2 ∧
    (r.status ≠ .ok → r.data = 0#32) ∧
    (r.status = .ok → ∃ i, decode w = some i ∧
      r.data =
        match i with
        | .init _ => 0#32
        | .reset => 0#32
        | .append0 => 0#32
        | .append1 _ => 1#32
        | .append2 _ _ => 2#32
        | .append3 _ _ _ => 3#32
        | .append4 _ _ _ _ => 4#32
        | .digest => s.inst.lastDigest
        | .digestb n => (s.inst.lastDigest >>> (24 - 8 * n.toNat)) &&& 0xFF#32
        | .size => 4#32
        | .blksz => 1#32)

/-- R128, R129: which status a word gets: ill-formedness first, then a missing object, else OK; an error leaves no trace in the state. -/
def Obligations.StatusByPriority : Prop :=
  ∀ (w : Command) (s : State), ∃ S r, acceptCommand w s = .next (answered s S r) ∧
    r.status = priorityStatus w s.inst.constructed ∧ (r.status ≠ .ok → S = s.inst ∧ r.data = 0#32)

/-- R130: errors are precise: the state after an erroneous command is the state before it, with the response, and the next command executes as it
would have without the error. -/
def Obligations.ErrorsChangeNothing : Prop :=
  ∀ (w : Command) (s t : State) (r : Response), acceptCommand w s = .next t → t.outstanding = s.outstanding ++ [r] → r.status ≠ .ok →
    t = answered s s.inst r ∧
      ∀ w' : Command, ∃ S r', acceptCommand w' s = .next (answered s S r') ∧ acceptCommand w' t = .next (answered t S r')

/-- R24: without an object RESET, APPEND, DIGEST and DIGESTB answer NOT_CONSTRUCTED and change nothing; INIT sets `constructed`; only power-on
reset clears it. -/
def Obligations.ConstructedBitRule : Prop :=
  (∀ (i : Instr) (s : State), i.wellFormed = true → needsObject i = true → s.inst.constructed = false →
    exec i s = .next (answered s s.inst ⟨.notConstructed, 0#32⟩)) ∧
  (∀ (seed : Word) (s : State), ∃ t, exec (.init seed) s = .next t ∧ t.inst.constructed = true) ∧
  ∀ s t : State, step s = .next t → s.inst.constructed = true → t.inst.constructed = false → s.edges.head? = some .resetEdge

/-- R36: hidden state: of all fields only `last_digest` and `constructed` affect a response, and `constructed` only through a NOT_CONSTRUCTED
response. -/
def Obligations.HiddenStateNotRead : Prop :=
  ∀ (w : Command) (s s' : State), s.inst.lastDigest = s'.inst.lastDigest →
    ∃ r r' S S', acceptCommand w s = .next (answered s S r) ∧ acceptCommand w s' = .next (answered s' S' r') ∧
      (r = r' ∨ (s.inst.constructed ≠ s'.inst.constructed ∧ (r.status = .notConstructed ∨ r'.status = .notConstructed)))

/-! ### The commands -/

/-- R40 (and R107, for an instance already constructed): every field after INIT, in every state. -/
def Obligations.InitCreatesFreshObject : Prop :=
  ∀ (seed : Word) (s : State),
    exec (.init seed) s = .next (answered s
      { constructed := true, seed := seed, runningHash := seed, pendingWord := 0#32, pendingCount := 0, totalBytes := 0#64,
        lastDigest := fMix seed, mode := .empty } ⟨.ok, 0#32⟩)

/-- R41: RESET leaves every field at its value after INIT of the same seed; `seed` and `constructed` are unchanged. -/
def Obligations.ResetRestoresFreshObject : Prop :=
  ∀ s : State, s.inst.constructed = true →
    exec .reset s = .next (answered s
      { constructed := s.inst.constructed, seed := s.inst.seed, runningHash := s.inst.seed, pendingWord := 0#32, pendingCount := 0,
        totalBytes := 0#64, lastDigest := fMix s.inst.seed, mode := .empty } ⟨.ok, 0#32⟩) ∧
    ∃ t u, exec .reset s = .next t ∧ exec (.init s.inst.seed) s = .next u ∧ t = u

/-- R118: RESET clears the pending bytes and the byte count, and the spec's example separates it from the rejected partial reset. -/
def Obligations.PartialResetExcluded : Prop :=
  (∀ s : State, s.inst.constructed = true → ∃ t, exec .reset s = .next t ∧ t.inst.runningHash = s.inst.seed ∧
    t.inst.pendingWord = 0#32 ∧ t.inst.pendingCount = 0 ∧ t.inst.totalBytes = 0#64) ∧
  (∀ s : State, ∃ t, execAll [.init 0x5082EDEE#32, .append3 0#8 0#8 0#8, .reset] s = .next t ∧ t.inst.lastDigest = 0x4CAF54BC#32) ∧
  finalize 0x5082EDEE#32 0#32 3#64 = 0x868C94FB#32

/-- R109 with R105, R108, R112 and R113, in closed form: an APPEND of `n` bytes at `pending_count = k` on a constructed instance. It completes a
block exactly when `k + n >= 4`, and then runs the block mixer once on the pending word with the first `4 - k` bytes. -/
def Obligations.AppendResult : Prop :=
  ∀ (i : Instr) (s : State), isAppend i = true → s.inst.constructed = true →
    let bs := appendedBytes i
    let n := bs.length
    let k := s.inst.pendingCount.val
    ∃ S : Instance, exec i s = .next (answered s S ⟨.ok, BitVec.ofNat 32 n⟩) ∧
      (n = 0 → S = s.inst) ∧
      (1 ≤ n → k + n < 4 → S.runningHash = s.inst.runningHash ∧ S.pendingCount.val = k + n ∧
        S.pendingWord = s.inst.pendingWord ||| (packLanes bs <<< (8 * k))) ∧
      (4 ≤ k + n →
        S.runningHash = blockMix s.inst.runningHash (s.inst.pendingWord ||| (packLanes (bs.take (4 - k)) <<< (8 * k))) ∧
        S.pendingCount.val = k + n - 4 ∧ S.pendingWord = packLanes (bs.drop (4 - k))) ∧
      (1 ≤ n → S.totalBytes = s.inst.totalBytes + BitVec.ofNat 64 n ∧
        S.lastDigest = finalize S.runningHash S.pendingWord S.totalBytes ∧ S.mode = .accumulating) ∧
      S.seed = s.inst.seed ∧ S.constructed = true

/-- R120: DIGEST returns the cached digest and writes nothing. -/
def Obligations.DigestReturnsLastDigest : Prop :=
  ∀ s : State,
    (s.inst.constructed = true → exec .digest s = .next (answered s s.inst ⟨.ok, s.inst.lastDigest⟩)) ∧
    (s.inst.constructed = false → exec .digest s = .next (answered s s.inst ⟨.notConstructed, 0#32⟩))

/-- R122 (derived): DIGESTB returns byte I of the digest, most significant first, zero-extended. The last clause is the model's choice (log 11,
DESIGN CHOICE), no rule of the spec: no word decodes to a term with N of 4 to 7, R122 and R129 speak of words, and the model gives such a term
the answer its word gets. -/
def Obligations.DigestbReturnsOneByte : Prop :=
  ∀ (n : BitVec 3) (s : State),
    (n.toNat ≤ 3 → s.inst.constructed = true →
      exec (.digestb n) s = .next (answered s s.inst ⟨.ok, (s.inst.lastDigest >>> (24 - 8 * n.toNat)) &&& 0xFF#32⟩)) ∧
    (n.toNat ≤ 3 → s.inst.constructed = false → exec (.digestb n) s = .next (answered s s.inst ⟨.notConstructed, 0#32⟩)) ∧
    (3 < n.toNat → exec (.digestb n) s = .next (answered s s.inst ⟨.illegalEncoding, 0#32⟩))

/-- R48: DIGESTB I returns byte I of the big-endian serialization, and the four bytes are the digest. -/
def Obligations.SerializedDigestIsBigEndian : Prop :=
  (∀ d : Word, serializeDigest d = [d.extractLsb' 24 8, d.extractLsb' 16 8, d.extractLsb' 8 8, d.extractLsb' 0 8] ∧
    (d.extractLsb' 24 8 ++ d.extractLsb' 16 8 ++ d.extractLsb' 8 8 ++ d.extractLsb' 0 8 : BitVec 32) = d) ∧
  ∀ (s : State) (k : Nat) (b : Byte), s.inst.constructed = true → (serializeDigest s.inst.lastDigest)[k]? = some b →
    exec (.digestb (BitVec.ofNat 3 k)) s = .next (answered s s.inst ⟨.ok, b.setWidth 32⟩)

/-- R35: SIZE answers 4 and BLKSZ answers 1 in every state, and nothing is written. -/
def Obligations.ConstantQueriesInEveryState : Prop :=
  ∀ s : State, exec .size s = .next (answered s s.inst ⟨.ok, 4#32⟩) ∧ exec .blksz s = .next (answered s s.inst ⟨.ok, 1#32⟩)

/-- R25: only INIT writes `seed`; RESET and the digests of INIT and RESET read it. -/
def Obligations.OnlyInitWritesSeed : Prop :=
  (∀ (seed : Word) (s : State), ∃ t, exec (.init seed) s = .next t ∧ t.inst.seed = seed ∧ t.inst.lastDigest = fMix seed) ∧
  (∀ (i : Instr) (s t : State), exec i s = .next t → (∀ seed, i ≠ .init seed) → t.inst.seed = s.inst.seed) ∧
  ∀ s : State, s.inst.constructed = true →
    ∃ t, exec .reset s = .next t ∧ t.inst.runningHash = s.inst.seed ∧ t.inst.lastDigest = fMix s.inst.seed

/-- R31: who writes `mode`, and that no command reads it: another mode changes no response and no other field. -/
def Obligations.ModeIsWrittenNotRead : Prop :=
  (modeBit .empty = 0#1 ∧ modeBit .accumulating = 1#1) ∧
  (∀ (i : Instr) (s t : State), exec i s = .next t →
    (∀ seed, i = .init seed → t.inst.mode = .empty) ∧
    (i = .reset → s.inst.constructed = true → t.inst.mode = .empty) ∧
    (isAppend i = true → 1 ≤ (appendedBytes i).length → s.inst.constructed = true → t.inst.mode = .accumulating) ∧
    (isAppend i = true → (appendedBytes i).length = 0 → t.inst.mode = s.inst.mode) ∧
    (isQuery i = true → t.inst.mode = s.inst.mode)) ∧
  ∀ (i : Instr) (s t : State) (m : Mode), exec i s = .next t →
    ∃ m', exec i { s with inst := { s.inst with mode := m } } = .next { t with inst := { t.inst with mode := m' } }

/-! ### Invariants -/

/-- R27, R32, R33, R31, R64 and R152 together: every step keeps the invariant, from every state that meets it. -/
def Obligations.StepKeepsInvariant : Prop := ∀ s t : State, stateInv s → step s = .next t → stateInv t

/-- The invariant holds right after power-on reset. -/
def Obligations.ResetStateMeetsInvariant : Prop := stateInv State.reset

/-! ### The datapath -/

/-- R83, R86, R87, R90, R91, R93: the stages of the datapath with the constants written out, and the rules' worked examples. -/
def Obligations.DatapathStages : Prop :=
  (c1 = 0xcc9e2d51#32 ∧ c2 = 0x1b873593#32 ∧ r1 = 15 ∧ r2 = 13 ∧ mConst = 5#32 ∧ nConst = 0xe6546b64#32 ∧ f1 = 0x85ebca6b#32 ∧
    f2 = 0xc2b2ae35#32) ∧
  (∀ k : Word, mixK k = rotl32 (k * 0xcc9e2d51#32) 15 * 0x1b873593#32) ∧
  (∀ h k : Word, blockMix h k = rotl32 (h ^^^ mixK k) 13 * 5#32 + 0xe6546b64#32) ∧
  (∀ t : Word, tailMix t = mixK t) ∧ tailMix 0#32 = 0#32 ∧
  (∀ h : Word, fMix h =
    (let a1 := h ^^^ (h >>> 16)
     let a2 := a1 * 0x85ebca6b#32
     let a3 := a2 ^^^ (a2 >>> 13)
     let a4 := a3 * 0xc2b2ae35#32
     a4 ^^^ (a4 >>> 16))) ∧
  (∀ (h t : Word) (tb : ByteCount), finalize h t tb = fMix ((h ^^^ tailMix t) ^^^ tb.extractLsb' 0 32)) ∧
  (0x74736574#32 * c1 = 0x2EF07DB4#32 ∧ rotl32 0x2EF07DB4#32 15 = 0x3EDA1778#32 ∧ mixK 0x74736574#32 = 0x465F51E8#32) ∧
  (rotl32 0x465F51E8#32 13 = 0xEA3D08CB#32 ∧ blockMix 0#32 0x74736574#32 = 0x7985975B#32) ∧
  (xorShift 0x7985975F#32 16 = 0x7985EEDA#32 ∧ 0x7985EEDA#32 * f1 = 0xFD90D91E#32 ∧ xorShift 0xFD90D91E#32 13 = 0xFD973598#32 ∧
    0xFD973598#32 * f2 = 0xBA6B6878#32 ∧ fMix 0x7985975F#32 = 0xBA6BD213#32) ∧
  finalize 0x7985975B#32 0#32 4#64 = 0xBA6BD213#32

/-- R84: the rotate moves bit `(i - r) mod 32` to bit `i`; the block rotates by 15 and 13 only. -/
def Obligations.RotateMovesEachBit : Prop :=
  (∀ (x : Word) (r i : Nat), 0 < r → r < 32 → i < 32 → (rotl32 x r).getLsbD i = x.getLsbD ((i + 32 - r) % 32)) ∧
  (∀ (x : Word) (r : Nat), 0 < r → r < 32 →
    (rotl32 x r).toNat = ((x.toNat <<< r) ||| (x.toNat >>> (32 - r))) % 2 ^ 32) ∧
  r1 = 15 ∧ r2 = 13 ∧ rotl32 0x80000000#32 15 = 0x00004000#32

/-- R46, R85 (little-endian is the spec's decision D8, log 8): the byte of lowest offset is the least significant byte of the block word. -/
def Obligations.BlockWordIsLittleEndian : Prop :=
  (∀ b0 b1 b2 b3 : Byte,
    (blockWord b0 b1 b2 b3).toNat = b0.toNat + 256 * b1.toNat + 65536 * b2.toNat + 16777216 * b3.toNat) ∧
  blockWord 0x74#8 0x65#8 0x73#8 0x74#8 = 0x74736574#32

/-- R89 (the spec derives it): the key mix and, for a fixed key, the block mix lose nothing. -/
def Obligations.BlockMixerIsBijective : Prop :=
  mixK 0#32 = 0#32 ∧ Function.Bijective mixK ∧ (∀ k : Word, Function.Bijective (fun h => blockMix h k)) ∧
  blockMix 0#32 0#32 = 0xE6546B64#32

/-- R92 (the spec derives it): the avalanche loses nothing. -/
def Obligations.AvalancheIsBijective : Prop :=
  fMix 0#32 = 0#32 ∧ Function.Bijective fMix ∧ fMix 1#32 = 0x514E28B7#32 ∧ fMix 0xFFFFFFFF#32 = 0x81F16F39#32

/-- R102 and R93 (derived): with no pending byte the tail step changes nothing, and only the low 32 bits of the count matter. -/
def Obligations.EmptyTailFoldsToNothing : Prop :=
  (∀ (h : Word) (tb : ByteCount), finalize h 0#32 tb = fMix (h ^^^ tb.extractLsb' 0 32)) ∧
  ∀ (h t : Word) (tb tb' : ByteCount), tb.toNat % 2 ^ 32 = tb'.toNat % 2 ^ 32 → finalize h t tb = finalize h t tb'

/-- R100 (derived): a small value passes an xor-shift unchanged. -/
def Obligations.SmallValuesPassXorShift : Prop :=
  ∀ x : Word, (x.toNat < 2 ^ 13 → xorShift x 13 = x) ∧ (x.toNat < 2 ^ 16 → xorShift x 16 = x)

/-! ### Streams -/

/-- R111 (derived): after INIT, any APPEND commands leave the state that their bytes alone determine, with the one-shot digest. -/
def Obligations.StreamingEquivalence : Prop :=
  ∀ (seed : Word) (is : List Instr) (s : State), (∀ i ∈ is, isAppend i = true) →
    ∃ t, execAll (.init seed :: is) s = .next t ∧ t.inst = instanceOfStream seed (is.flatMap appendedBytes) ∧
      t.inst.lastDigest = murmur3 seed (is.flatMap appendedBytes)

/-- R34 (derived): the stream view is kept by every sequence of well-formed commands, from every instance that has it. -/
def Obligations.StreamViewIsKept : Prop :=
  ∀ (is : List Instr) (s : State) (g : Ghost), matchesGhost s.inst g → (∀ i ∈ is, i.wellFormed = true) →
    ∃ t, execAll is s = .next t ∧ matchesGhost t.inst (ghostAll is g)

/-- R121: DIGEST answers the one-shot hash of the seed and of every byte absorbed since the last INIT or RESET. -/
def Obligations.DigestReflectsWholeStream : Prop :=
  ∀ (is : List Instr) (s : State) (seed : Word) (bs : List Byte), s.inst.constructed = false → (∀ i ∈ is, i.wellFormed = true) →
    ghostAll is none = some (seed, bs) →
    ∃ t u, execAll is s = .next t ∧ exec .digest t = .next u ∧ u = answered t t.inst ⟨.ok, murmur3 seed bs⟩ ∧
      t.inst.seed = seed

/-- R157 with R34 and R121: stepped through its ports over any words, the machine answers exactly what the reference answers that hashes the
whole stream at each query. -/
def Obligations.MachineRefinesReference : Prop :=
  ∀ (ws : List Command) (s : State) (g : Ghost), matchesGhost s.inst g → s.commands = [] → s.edges = [] → s.outstanding = [] →
    ∃ t, runSteps (2 * ws.length) (offerCommands ws s) = .next t ∧ t.taken = s.taken ++ ghostRun ws g ∧ t.outstanding = [] ∧
      t.commands = [] ∧ t.edges = [] ∧ matchesGhost t.inst (ghostWords ws g)

/-- R39, U3: the UNSPECIFIED fields cannot be observed: two instances without an object give the same responses to the same words. -/
def Obligations.PowerOnValuesUnobservable : Prop :=
  ∀ (ws : List Command) (S S' : Instance), S.constructed = false → S'.constructed = false →
    ∃ t t', runSteps (2 * ws.length) (offerCommands ws { State.reset with inst := S }) = .next t ∧
      runSteps (2 * ws.length) (offerCommands ws { State.reset with inst := S' }) = .next t' ∧ t.taken = t'.taken ∧
      t.taken.length = ws.length

/-- R117 (derived): APPEND and query commands before a RESET leave no trace in the state or in the responses after it. -/
def Obligations.ResetEquivalence : Prop :=
  ∀ (seed : Word) (xs ps : List Instr) (s : State), (∀ i ∈ xs, isAppend i = true ∨ isQuery i = true) → (∀ i ∈ ps, isAppend i = true) →
    ∃ t u pre pre' rs, execAll (.init seed :: (xs ++ .reset :: ps)) s = .next t ∧ execAll (.init seed :: ps) s = .next u ∧
      t.inst = u.inst ∧ t.outstanding = pre ++ rs ∧ u.outstanding = pre' ++ rs ∧ rs.length = ps.length

/-- R119 (derived): a second RESET leaves the state of the first and gives the same response. -/
def Obligations.ResetIsIdempotent : Prop :=
  ∀ s t : State, exec .reset s = .next t → ∃ u r, exec .reset t = .next u ∧ u.inst = t.inst ∧
    t.outstanding = s.outstanding ++ [r] ∧ u.outstanding = t.outstanding ++ [r]

/-- R80, R114 (derived): APPENDS consumes its whole byte string with OK responses whose data sum to its length, and any other split into APPEND
commands leaves the same instance. -/
def Obligations.AppendsExpansionConsumesAll : Prop :=
  ∀ (bs : List Byte) (s : State), s.inst.constructed = true →
    (appends bs).length = (bs.length + 3) / 4 ∧
    ∃ t rs, execAll (appends bs) s = .next t ∧ t.outstanding = s.outstanding ++ rs ∧ (∀ r ∈ rs, r.status = .ok) ∧
      bytesConsumed rs = bs.length ∧
      ∀ is : List Instr, (∀ i ∈ is, isAppend i = true) → is.flatMap appendedBytes = bs →
        ∃ u, execAll is s = .next u ∧ u.inst = t.inst

/-- R81, R82 (derived): with no command in between, DIGESTAPPEND and DIGESTAPPEND.W put the same four bytes in the host's buffer. -/
def Obligations.DigestAppendFormsAgree : Prop :=
  ∀ (s : State) (buffer : List Byte), s.inst.constructed = true →
    ∃ rs rs', execAll digestAppend s = .next { s with outstanding := s.outstanding ++ rs } ∧
      execAll digestAppendW s = .next { s with outstanding := s.outstanding ++ rs' } ∧
      hostAppendBytes buffer rs = buffer ++ serializeDigest s.inst.lastDigest ∧
      hostAppendWords buffer rs' = buffer ++ serializeDigest s.inst.lastDigest

/-- R126 (derived): a query inserted anywhere changes no later response and no state. -/
def Obligations.QueriesInsertAnywhere : Prop :=
  ∀ (pre post : List Instr) (q : Instr) (s : State), isQuery q = true →
    ∃ t u a b r, execAll (pre ++ post) s = .next t ∧ execAll (pre ++ q :: post) s = .next u ∧ u.inst = t.inst ∧
      t.outstanding = s.outstanding ++ a ++ b ∧ u.outstanding = s.outstanding ++ a ++ [r] ++ b ∧ a.length = pre.length ∧
      b.length = post.length

/-- R135 (derived): a host that emits only the encodings of the spec, and INIT before any command that needs an object, sees only OK. -/
def Obligations.SourceFaithfulHostSeesOnlyOk : Prop :=
  ∀ (is : List Instr) (s : State), s.commands = [] → s.edges = [] → s.outstanding = [] → (∀ i ∈ is, i.wellFormed = true) →
    initFirst s.inst.constructed is = true →
    ∃ t rs, runSteps (2 * is.length) (offerCommands (is.map encode) s) = .next t ∧ t.taken = s.taken ++ rs ∧ rs.length = is.length ∧
      ∀ r ∈ rs, r.status = .ok

/-! ### Several instances -/

/-- R138: on a platform, under every schedule, each instance ends where its own steps alone take it. -/
def Obligations.InstancesShareNothing : Prop :=
  ∀ (ks : List Nat) (p : List State), ∃ q, platformRun ks p = .next q ∧ q.length = p.length ∧
    ∀ (j : Nat) (s : State), p[j]? = some s → ∃ t, runSteps (ks.count j) s = .next t ∧ q[j]? = some t
end

