-- ==== Sys2Proof/Laws/Decode.lean ====
section
/-! SUPPORT. The fields of an encoded command and the lanes of packed bytes, said once. -/

namespace Sys2Proof

section Fields
variable (o : BitVec 8) (n : BitVec 3) (d : Word)

theorem opcField_commandWord : opcField (commandWord o n d) = o := by
  unfold opcField commandWord
  ext i hi
  interval_cases i <;> simp

theorem rsvField_commandWord : rsvField (commandWord o n d) = 0#21 := by
  unfold rsvField commandWord
  ext i hi
  interval_cases i <;> simp

theorem nField_commandWord : nField (commandWord o n d) = n := by
  unfold nField commandWord
  ext i hi
  interval_cases i <;> simp

theorem dataField_commandWord : dataField (commandWord o n d) = d := by
  unfold dataField commandWord
  ext i hi
  interval_cases i <;> simp

end Fields

/-- A word with `RSV = 0` is nothing but its other three fields (R59). -/
theorem commandWord_fields (w : Command) (h : rsvField w = 0#21) :
    commandWord (opcField w) (nField w) (dataField w) = w := by
  have hr : ∀ j, j < 21 → w.getLsbD (35 + j) = false := by
    intro j hj
    have := congrArg (fun x => x.getLsbD j) h
    simpa [rsvField, hj] using this
  unfold commandWord opcField nField dataField
  apply BitVec.eq_of_getLsbD_eq
  intro i hi
  simp only [BitVec.getLsbD_or, BitVec.getLsbD_shiftLeft, BitVec.getLsbD_setWidth, BitVec.getLsbD_extractLsb']
  by_cases h1 : i < 32
  · have h2 : i < 56 := by omega
    simp [h1, h2, hi]
  · by_cases h2 : i < 35
    · have h3 : i < 56 := by omega
      have h4 : i - 32 < 3 := by omega
      have h5 : i - 32 < 64 := by omega
      have h6 : 32 + (i - 32) = i := by omega
      simp [h1, h3, h4, h5, h6, hi]
    · by_cases h3 : i < 56
      · have h4 : ¬ (i - 32 < 3) := by omega
        have h5 := hr (i - 35) (by omega)
        have h6 : 35 + (i - 35) = i := by omega
        rw [h6, BitVec.getLsbD_eq_getElem hi] at h5
        simp [h1, h3, h4, h5, hi]
      · have h4 : ¬ (i - 32 < 3) := by omega
        have h5 : i - 56 < 8 := by omega
        have h6 : 56 + (i - 56) = i := by omega
        have h7 : i - 56 < 64 := by omega
        simp [h1, h3, h4, h5, h6, h7, hi]

theorem packLanes_nil : packLanes [] = 0#32 := rfl

theorem packLanes_one (b0 : Byte) : packLanes [b0] = zext32 b0 := by simp [packLanes, List.zipIdx]

theorem packLanes_two (b0 b1 : Byte) : packLanes [b0, b1] = zext32 b0 ||| (zext32 b1 <<< 8) := by simp [packLanes, List.zipIdx]

theorem packLanes_three (b0 b1 b2 : Byte) :
    packLanes [b0, b1, b2] = zext32 b0 ||| (zext32 b1 <<< 8) ||| (zext32 b2 <<< 16) := by simp [packLanes, List.zipIdx]

theorem packLanes_four (b0 b1 b2 b3 : Byte) :
    packLanes [b0, b1, b2, b3] = zext32 b0 ||| (zext32 b1 <<< 8) ||| (zext32 b2 <<< 16) ||| (zext32 b3 <<< 24) := by
  simp [packLanes, List.zipIdx]

/-- A byte packed behind `bs` stands in the next lane (R44, R96). -/
theorem packLanes_snoc (bs : List Byte) (b : Byte) :
    packLanes (bs ++ [b]) = packLanes bs ||| (zext32 b <<< (8 * bs.length)) := by
  unfold packLanes
  rw [List.zipIdx_append, List.foldl_append]; simp

theorem upperLanesZero_iff (n : Nat) (d : Word) :
    upperLanesZero n d = true ↔ ∀ i, 8 * n ≤ i → i < 32 → d.getLsbD i = false := by
  unfold upperLanesZero
  rw [beq_iff_eq]
  constructor
  · intro h i h1 h2
    have := congrArg (fun x => x.getLsbD (i - 8 * n)) h
    simpa [show 8 * n + (i - 8 * n) = i by omega] using this
  · intro h
    apply BitVec.eq_of_getLsbD_eq
    intro i hi
    simp only [BitVec.getLsbD_ushiftRight, BitVec.getLsbD_zero]
    by_cases h2 : 8 * n + i < 32
    · exact h _ (by omega) h2
    · exact BitVec.getLsbD_of_ge _ _ (by omega)

theorem upperLanesZero_zero (d : Word) : upperLanesZero 0 d = true ↔ d = 0#32 := by simp [upperLanesZero]

/-- Bits at or above lane `n` of a word whose upper lanes are zero, in the form `ext` asks for. -/
theorem upperLanesZero_getElem {n : Nat} {d : Word} (h : upperLanesZero n d = true) (i : Nat) (hi : i < 32) (hn : 8 * n ≤ i) :
    d[i] = false := by
  rw [← BitVec.getLsbD_eq_getElem hi]; exact (upperLanesZero_iff n d).1 h i hn hi

theorem packLanes_lanes1 (d : Word) (h : upperLanesZero 1 d = true) : packLanes [lane 0 d] = d := by
  have h' := upperLanesZero_getElem h
  rw [packLanes_one]; unfold lane zext32
  ext i hi; interval_cases i <;> simp <;> (apply h'; decide)

theorem packLanes_lanes2 (d : Word) (h : upperLanesZero 2 d = true) : packLanes [lane 0 d, lane 1 d] = d := by
  have h' := upperLanesZero_getElem h
  rw [packLanes_two]; unfold lane zext32
  ext i hi; interval_cases i <;> simp <;> (apply h'; decide)

theorem packLanes_lanes3 (d : Word) (h : upperLanesZero 3 d = true) : packLanes [lane 0 d, lane 1 d, lane 2 d] = d := by
  have h' := upperLanesZero_getElem h
  rw [packLanes_three]; unfold lane zext32
  ext i hi; interval_cases i <;> simp <;> (apply h'; decide)

theorem packLanes_lanes4 (d : Word) : packLanes [lane 0 d, lane 1 d, lane 2 d, lane 3 d] = d := by
  rw [packLanes_four]; unfold lane zext32
  ext i hi; interval_cases i <;> simp

theorem upperLanesZero_pack1 (b0 : Byte) : upperLanesZero 1 (packLanes [b0]) = true := by
  rw [upperLanesZero_iff, packLanes_one]; intro i h1 h2; unfold zext32; interval_cases i <;> simp

theorem upperLanesZero_pack2 (b0 b1 : Byte) : upperLanesZero 2 (packLanes [b0, b1]) = true := by
  rw [upperLanesZero_iff, packLanes_two]; intro i h1 h2; unfold zext32; interval_cases i <;> simp

theorem upperLanesZero_pack3 (b0 b1 b2 : Byte) : upperLanesZero 3 (packLanes [b0, b1, b2]) = true := by
  rw [upperLanesZero_iff, packLanes_three]; intro i h1 h2; unfold zext32; interval_cases i <;> simp

theorem lane_pack1 (b0 : Byte) : lane 0 (packLanes [b0]) = b0 := by
  rw [packLanes_one]; unfold lane zext32; ext i hi; interval_cases i <;> simp

theorem lane_pack2 (b0 b1 : Byte) : lane 0 (packLanes [b0, b1]) = b0 ∧ lane 1 (packLanes [b0, b1]) = b1 := by
  rw [packLanes_two]; unfold lane zext32
  refine ⟨?_, ?_⟩ <;> (ext i hi; interval_cases i <;> simp)

theorem lane_pack3 (b0 b1 b2 : Byte) :
    lane 0 (packLanes [b0, b1, b2]) = b0 ∧ lane 1 (packLanes [b0, b1, b2]) = b1 ∧ lane 2 (packLanes [b0, b1, b2]) = b2 := by
  rw [packLanes_three]; unfold lane zext32
  refine ⟨?_, ?_, ?_⟩ <;> (ext i hi; interval_cases i <;> simp)

theorem lane_pack4 (b0 b1 b2 b3 : Byte) :
    lane 0 (packLanes [b0, b1, b2, b3]) = b0 ∧ lane 1 (packLanes [b0, b1, b2, b3]) = b1 ∧
      lane 2 (packLanes [b0, b1, b2, b3]) = b2 ∧ lane 3 (packLanes [b0, b1, b2, b3]) = b3 := by
  rw [packLanes_four]; unfold lane zext32
  refine ⟨?_, ?_, ?_, ?_⟩ <;> (ext i hi; interval_cases i <;> simp)

/-- A byte widened and cut back is the byte (R13). -/
theorem lane_zext32 (b : Byte) : lane 0 (zext32 b) = b := by
  unfold lane zext32; ext i hi; interval_cases i <;> simp

end Sys2Proof
end

