-- ==== Sys2Proof/Laws/State.lean ====
section
/-! SUPPORT. What each update of the state leaves in each field, one lemma per field. The lemmas about `updateDigest` take the instance apart
first: a bare `rfl` would let the kernel compare `last_digest` with the whole finalizer. -/

namespace Sys2Proof.Machine

section Answered
variable (s : State) (S : Instance) (r : Response)
@[simp] theorem answered_inst : (answered s S r).inst = S := rfl
@[simp] theorem answered_outstanding : (answered s S r).outstanding = s.outstanding ++ [r] := rfl
@[simp] theorem answered_commands : (answered s S r).commands = s.commands := rfl
@[simp] theorem answered_edges : (answered s S r).edges = s.edges := rfl
@[simp] theorem answered_taken : (answered s S r).taken = s.taken := rfl
@[simp] theorem answered_draws : (answered s S r).draws = s.draws := rfl
end Answered

section Offered
variable (ws : List Command) (s : State)
@[simp] theorem offerCommands_inst : (offerCommands ws s).inst = s.inst := rfl
@[simp] theorem offerCommands_commands : (offerCommands ws s).commands = s.commands ++ ws := rfl
@[simp] theorem offerCommands_edges :
    (offerCommands ws s).edges = s.edges ++ ws.flatMap (fun _ => [PortEvent.cmdEdge, PortEvent.respEdge]) := rfl
@[simp] theorem offerCommands_outstanding : (offerCommands ws s).outstanding = s.outstanding := rfl
@[simp] theorem offerCommands_taken : (offerCommands ws s).taken = s.taken := rfl
@[simp] theorem offerCommands_draws : (offerCommands ws s).draws = s.draws := rfl
end Offered

section Presented
variable (w : Command) (s : State)
@[simp] theorem presentNext_inst : (presentNext w s).inst = s.inst := rfl
@[simp] theorem presentNext_commands : (presentNext w s).commands = w :: s.commands := rfl
@[simp] theorem presentNext_edges : (presentNext w s).edges = .cmdEdge :: s.edges := rfl
@[simp] theorem presentNext_outstanding : (presentNext w s).outstanding = [] := rfl
@[simp] theorem presentNext_taken : (presentNext w s).taken = s.taken ++ s.outstanding := rfl
@[simp] theorem presentNext_draws : (presentNext w s).draws = s.draws := rfl
end Presented

section Digested
variable (S : Instance)
@[simp] theorem updateDigest_constructed : (updateDigest S).constructed = S.constructed := by cases S; rfl
@[simp] theorem updateDigest_seed : (updateDigest S).seed = S.seed := by cases S; rfl
@[simp] theorem updateDigest_runningHash : (updateDigest S).runningHash = S.runningHash := by cases S; rfl
@[simp] theorem updateDigest_pendingWord : (updateDigest S).pendingWord = S.pendingWord := by cases S; rfl
@[simp] theorem updateDigest_pendingCount : (updateDigest S).pendingCount = S.pendingCount := by cases S; rfl
@[simp] theorem updateDigest_totalBytes : (updateDigest S).totalBytes = S.totalBytes := by cases S; rfl
@[simp] theorem updateDigest_lastDigest :
    (updateDigest S).lastDigest = finalize S.runningHash S.pendingWord S.totalBytes := by cases S; rfl
@[simp] theorem updateDigest_mode : (updateDigest S).mode = S.mode := by cases S; rfl
end Digested

section Constructed
variable (seed : Word)
@[simp] theorem construct_constructed : (construct seed).constructed = true := rfl
@[simp] theorem construct_seed : (construct seed).seed = seed := rfl
@[simp] theorem construct_runningHash : (construct seed).runningHash = seed := rfl
@[simp] theorem construct_pendingWord : (construct seed).pendingWord = 0#32 := rfl
@[simp] theorem construct_pendingCount : (construct seed).pendingCount = 0 := rfl
@[simp] theorem construct_totalBytes : (construct seed).totalBytes = 0#64 := rfl
@[simp] theorem construct_lastDigest : (construct seed).lastDigest = finalize seed 0#32 0#64 := rfl
@[simp] theorem construct_mode : (construct seed).mode = .empty := rfl
end Constructed

section PoweredOn
variable (n : Nat)
@[simp] theorem powerOnInstance_constructed : (powerOnInstance n).constructed = false := rfl
end PoweredOn

end Sys2Proof.Machine
end

