-- ==== Sys2Proof/Laws/Ops.lean ====
section
/-! SUPPORT. What each shared operation can do, said once: a command answers one response and changes nothing but the instance. -/

namespace Sys2Proof.Machine

theorem respond_eq (st : Status) (d : Word) (s : State) : respond st d s = .next (answered s s.inst ⟨st, d⟩) := rfl

theorem respondError_eq (st : Status) (s : State) : respondError st s = .next (answered s s.inst ⟨st, 0#32⟩) := rfl

theorem withObject_constructed (body : State → Result) (s : State) (h : s.inst.constructed = true) :
    withObject body s = body s := by simp [withObject, h]

theorem withObject_missing (body : State → Result) (s : State) (h : s.inst.constructed = false) :
    withObject body s = .next (answered s s.inst ⟨.notConstructed, 0#32⟩) := by simp [withObject, h, respondError_eq]

/-- `RESET` leaves exactly what `INIT` of the same seed leaves (R41). -/
theorem restart_eq_construct (S : Instance) (h : S.constructed = true) : restart S = construct S.seed := by
  cases S; simp_all [restart, construct]

theorem absorbByte_block (b : Byte) (S : Instance) (h : S.pendingCount = 3) :
    absorbByte b S =
      { S with
        totalBytes := S.totalBytes + 1#64
        runningHash := blockMix S.runningHash (S.pendingWord ||| (zext32 b <<< (8 * S.pendingCount.val)))
        pendingWord := 0#32
        pendingCount := 0 } := by simp [absorbByte, h]

theorem absorbByte_pending (b : Byte) (S : Instance) (h : S.pendingCount ≠ 3) :
    absorbByte b S =
      { S with
        totalBytes := S.totalBytes + 1#64
        pendingWord := S.pendingWord ||| (zext32 b <<< (8 * S.pendingCount.val))
        pendingCount := S.pendingCount + 1 } := by simp [absorbByte, h]

section Absorbed
variable (b : Byte) (S : Instance)
@[simp] theorem absorbByte_constructed : (absorbByte b S).constructed = S.constructed := by unfold absorbByte; dsimp only; split <;> rfl
@[simp] theorem absorbByte_seed : (absorbByte b S).seed = S.seed := by unfold absorbByte; dsimp only; split <;> rfl
@[simp] theorem absorbByte_lastDigest : (absorbByte b S).lastDigest = S.lastDigest := by unfold absorbByte; dsimp only; split <;> rfl
@[simp] theorem absorbByte_mode : (absorbByte b S).mode = S.mode := by unfold absorbByte; dsimp only; split <;> rfl
@[simp] theorem absorbByte_totalBytes : (absorbByte b S).totalBytes = S.totalBytes + 1#64 := by
  unfold absorbByte; dsimp only; split <;> rfl
theorem absorbByte_pendingCount : (absorbByte b S).pendingCount.val = (S.pendingCount.val + 1) % 4 := by
  unfold absorbByte; dsimp only; split
  · next h => simp [h]
  · next h => simp [Fin.val_add]
end Absorbed

@[simp] theorem absorbBytes_nil (S : Instance) : absorbBytes [] S = S := rfl

@[simp] theorem absorbBytes_cons (b : Byte) (bs : List Byte) (S : Instance) :
    absorbBytes (b :: bs) S = absorbBytes bs (absorbByte b S) := rfl

theorem absorbBytes_append (bs cs : List Byte) (S : Instance) : absorbBytes (bs ++ cs) S = absorbBytes cs (absorbBytes bs S) := by
  simp [absorbBytes, List.foldl_append]

/-- Byte absorption touches neither the object's seed nor its digest nor its mode (R105). -/
theorem absorbBytes_frame (bs : List Byte) (S : Instance) :
    (absorbBytes bs S).constructed = S.constructed ∧ (absorbBytes bs S).seed = S.seed ∧
      (absorbBytes bs S).lastDigest = S.lastDigest ∧ (absorbBytes bs S).mode = S.mode := by
  induction bs generalizing S with
  | nil => simp
  | cons b bs ih => simp [ih]

theorem appendChunk_nil (S : Instance) : appendChunk [] S = S := rfl

theorem appendChunk_of_ne_nil {bs : List Byte} (h : bs ≠ []) (S : Instance) :
    appendChunk bs S = { updateDigest (absorbBytes bs S) with mode := .accumulating } := by
  unfold appendChunk
  rw [if_neg (by simpa using h)]

/-- `APPEND` touches neither the object's existence nor its seed (R23, R25). -/
theorem appendChunk_frame (bs : List Byte) (S : Instance) :
    (appendChunk bs S).constructed = S.constructed ∧ (appendChunk bs S).seed = S.seed := by
  by_cases h : bs = []
  · subst h; exact ⟨rfl, rfl⟩
  · rw [appendChunk_of_ne_nil h]
    exact ⟨(updateDigest_constructed _).trans (absorbBytes_frame bs S).1, (updateDigest_seed _).trans (absorbBytes_frame bs S).2.1⟩

/-- The instance after an `APPEND` of `bs`, object or none. -/
def appendAfter (bs : List Byte) (S : Instance) : Instance := if S.constructed then appendChunk bs S else S

/-- The response to an `APPEND` of `bs`, object or none. -/
def appendResponse (bs : List Byte) (S : Instance) : Response :=
  if S.constructed then ⟨.ok, BitVec.ofNat 32 bs.length⟩ else ⟨.notConstructed, 0#32⟩

/-- The instance a command leaves, as a function of the instance it finds. -/
def instAfter : Instr → Instance → Instance
  | .init seed, _ => construct seed
  | .reset, S => if S.constructed then restart S else S
  | .append0, S => appendAfter [] S
  | .append1 b0, S => appendAfter [b0] S
  | .append2 b0 b1, S => appendAfter [b0, b1] S
  | .append3 b0 b1 b2, S => appendAfter [b0, b1, b2] S
  | .append4 b0 b1 b2 b3, S => appendAfter [b0, b1, b2, b3] S
  | .digest, S => S
  | .digestb _, S => S
  | .size, S => S
  | .blksz, S => S

/-- The response of a command, as a function of the instance it finds. -/
def responseOf : Instr → Instance → Response
  | .init _, _ => ⟨.ok, 0#32⟩
  | .reset, S => if S.constructed then ⟨.ok, 0#32⟩ else ⟨.notConstructed, 0#32⟩
  | .append0, S => appendResponse [] S
  | .append1 b0, S => appendResponse [b0] S
  | .append2 b0 b1, S => appendResponse [b0, b1] S
  | .append3 b0 b1 b2, S => appendResponse [b0, b1, b2] S
  | .append4 b0 b1 b2 b3, S => appendResponse [b0, b1, b2, b3] S
  | .digest, S => if S.constructed then ⟨.ok, S.lastDigest⟩ else ⟨.notConstructed, 0#32⟩
  | .digestb n, S =>
    if n.toNat ≤ 3 then
      (if S.constructed then ⟨.ok, zext32 (digestByte (digestIndex n) S.lastDigest)⟩ else ⟨.notConstructed, 0#32⟩)
    else ⟨.illegalEncoding, 0#32⟩
  | .size, _ => ⟨.ok, 4#32⟩
  | .blksz, _ => ⟨.ok, 1#32⟩

/-- Everything an `APPEND` can do, with an object and without one (R109). -/
theorem appendBytes_eq (bs : List Byte) (s : State) :
    appendBytes bs s = .next (answered s (appendAfter bs s.inst) (appendResponse bs s.inst)) := by
  unfold appendBytes appendAfter appendResponse
  cases h : s.inst.constructed
  · rw [withObject_missing _ _ h]; rfl
  · rw [withObject_constructed _ _ h]; rfl

theorem execReset_eq (s : State) : execReset s = .next (answered s (instAfter .reset s.inst) (responseOf .reset s.inst)) := by
  unfold execReset
  cases h : s.inst.constructed
  · rw [withObject_missing _ _ h]; simp [instAfter, responseOf, h]
  · rw [withObject_constructed _ _ h]; simp only [instAfter, responseOf, h]; rfl

theorem execDigest_eq (s : State) : execDigest s = .next (answered s (instAfter .digest s.inst) (responseOf .digest s.inst)) := by
  unfold execDigest
  cases h : s.inst.constructed
  · rw [withObject_missing _ _ h]; simp [instAfter, responseOf, h]
  · rw [withObject_constructed _ _ h]; simp only [instAfter, responseOf, h]; rfl

theorem execDigestb_eq (n : BitVec 3) (s : State) :
    execDigestb n s = .next (answered s (instAfter (.digestb n) s.inst) (responseOf (.digestb n) s.inst)) := by
  unfold execDigestb
  split
  · next hn =>
    cases h : s.inst.constructed
    · rw [withObject_missing _ _ h]; simp [instAfter, responseOf, h, hn]
    · rw [withObject_constructed _ _ h]; simp only [instAfter, responseOf, h, hn]; rfl
  · next hn => simp only [instAfter, responseOf, hn]; rfl

/-- Everything a command can do: one response, the instance, and nothing else. -/
theorem exec_eq (i : Instr) (s : State) : exec i s = .next (answered s (instAfter i s.inst) (responseOf i s.inst)) := by
  cases i with
  | init seed => rfl
  | reset => exact execReset_eq s
  | append0 => exact appendBytes_eq [] s
  | append1 b0 => exact appendBytes_eq [b0] s
  | append2 b0 b1 => exact appendBytes_eq [b0, b1] s
  | append3 b0 b1 b2 => exact appendBytes_eq [b0, b1, b2] s
  | append4 b0 b1 b2 b3 => exact appendBytes_eq [b0, b1, b2, b3] s
  | digest => exact execDigest_eq s
  | digestb n => exact execDigestb_eq n s
  | size => rfl
  | blksz => rfl

/-- Everything an accepted word can do (R74, R129). -/
theorem acceptCommand_eq (w : Command) (s : State) :
    acceptCommand w s =
      match decode w with
      | some i => .next (answered s (instAfter i s.inst) (responseOf i s.inst))
      | none => .next (answered s s.inst ⟨.illegalEncoding, 0#32⟩) := by
  unfold acceptCommand
  cases decode w with
  | none => rfl
  | some i => exact exec_eq i s

end Sys2Proof.Machine
end

