-- ==== Sys2Proof/Laws/PerInstr.lean ====
section
/-! SUPPORT. Laws for every command, one lemma per constructor of `Instr`. -/

namespace Sys2Proof.Laws.EncodesInRow

/-- The word of a well-formed command is selected by that command's own row of spec/opcode_table.json (R66 to R72). -/
def Statement (i : Instr) : Prop := i.wellFormed = true → encode i &&& rowMask i = rowMatch i

theorem init (seed : Word) : Statement (.init seed) := by
  intro _
  apply BitVec.eq_of_getLsbD_eq
  intro i hi
  simp only [rowMask, rowMatch, encode, commandWord]
  interval_cases i <;> simp

theorem reset : Statement .reset := fun _ => by decide

theorem append0 : Statement .append0 := fun _ => by decide

theorem append1 (b0 : Byte) : Statement (.append1 b0) := by
  intro _
  apply BitVec.eq_of_getLsbD_eq
  intro i hi
  simp only [rowMask, rowMatch, encode, packLanes_one, commandWord, zext32]
  interval_cases i <;> simp

theorem append2 (b0 b1 : Byte) : Statement (.append2 b0 b1) := by
  intro _
  apply BitVec.eq_of_getLsbD_eq
  intro i hi
  simp only [rowMask, rowMatch, encode, packLanes_two, commandWord, zext32]
  interval_cases i <;> simp

theorem append3 (b0 b1 b2 : Byte) : Statement (.append3 b0 b1 b2) := by
  intro _
  apply BitVec.eq_of_getLsbD_eq
  intro i hi
  simp only [rowMask, rowMatch, encode, packLanes_three, commandWord, zext32]
  interval_cases i <;> simp

theorem append4 (b0 b1 b2 b3 : Byte) : Statement (.append4 b0 b1 b2 b3) := by
  intro _
  apply BitVec.eq_of_getLsbD_eq
  intro i hi
  simp only [rowMask, rowMatch, encode, packLanes_four, commandWord, zext32]
  interval_cases i <;> simp

theorem digest : Statement .digest := fun _ => by decide

theorem digestb (n : BitVec 3) : Statement (.digestb n) := by
  intro h
  have hn : n = 0#3 ∨ n = 1#3 ∨ n = 2#3 ∨ n = 3#3 ∨ 3 < n.toNat := by revert n; decide
  rcases hn with rfl | rfl | rfl | rfl | hn
  · decide
  · decide
  · decide
  · decide
  · simp [Instr.wellFormed] at h; omega

theorem size : Statement .size := fun _ => by decide

theorem blksz : Statement .blksz := fun _ => by decide

end Sys2Proof.Laws.EncodesInRow
end

