-- ==== Sys2Proof/Laws/Step.lean ====
section
/-! SUPPORT. What one step and a list of commands can do, said once. Later proofs cite these and unfold neither `step` nor `execAll`. -/

namespace Sys2Proof.Machine

theorem acceptCommand_of_decode {w : Command} {i : Instr} (h : decode w = some i) (s : State) :
    acceptCommand w s = .next (answered s (instAfter i s.inst) (responseOf i s.inst)) := by rw [acceptCommand_eq, h]

theorem acceptCommand_of_ill {w : Command} (h : decode w = none) (s : State) :
    acceptCommand w s = .next (answered s s.inst ⟨.illegalEncoding, 0#32⟩) := by rw [acceptCommand_eq, h]

/-- Every accepted word leaves some instance and one response. -/
theorem acceptCommand_answers (w : Command) (s : State) : ∃ S r, acceptCommand w s = .next (answered s S r) := by
  cases h : decode w with
  | none => exact ⟨_, _, acceptCommand_of_ill h s⟩
  | some i => exact ⟨_, _, acceptCommand_of_decode h s⟩

/-- Everything a step that answers a next state can have done. -/
theorem step_cases {s t : State} (h : step s = .next t) :
    (s.edges = [] ∧ t = s) ∨
    (∃ es, s.edges = .cmdEdge :: es ∧ (s.commands = [] ∨ cmdReady s = false) ∧ t = { s with edges := es }) ∨
    (∃ es w ws, s.edges = .cmdEdge :: es ∧ s.commands = w :: ws ∧ cmdReady s = true ∧
      acceptCommand w { s with edges := es, commands := ws } = .next t) ∨
    (∃ es, s.edges = .respEdge :: es ∧ s.outstanding = [] ∧ t = { s with edges := es }) ∨
    (∃ es r rs, s.edges = .respEdge :: es ∧ s.outstanding = r :: rs ∧
      t = { s with edges := es, outstanding := rs, taken := s.taken ++ [r] }) ∨
    (∃ es, s.edges = .resetEdge :: es ∧
      t = { s with edges := es, inst := powerOnInstance s.draws, outstanding := [], draws := s.draws + 1 }) := by
  unfold step at h
  split at h
  · next he => injection h with h; exact .inl ⟨he, h.symm⟩
  · next e es he =>
    cases e with
    | cmdEdge =>
      simp only [portStep, commandEdge] at h
      split at h
      · next hc => injection h with h; exact .inr (.inl ⟨es, he, .inl hc, h.symm⟩)
      · next w ws hc =>
        split at h
        · next hr => exact .inr (.inr (.inl ⟨es, w, ws, he, hc, hr, h⟩))
        · next hr =>
          injection h with h
          exact .inr (.inl ⟨es, he, .inr (Bool.eq_false_iff.2 hr), h.symm⟩)
    | respEdge =>
      simp only [portStep, responseEdge] at h
      split at h
      · next ho => injection h with h; exact .inr (.inr (.inr (.inl ⟨es, he, ho, h.symm⟩)))
      · next r rs ho => injection h with h; exact .inr (.inr (.inr (.inr (.inl ⟨es, r, rs, he, ho, h.symm⟩))))
    | resetEdge =>
      simp only [portStep, powerOnReset] at h
      injection h with h
      exact .inr (.inr (.inr (.inr (.inr ⟨es, he, h.symm⟩))))

/-- The instance a list of commands leaves. -/
def instAfterAll : List Instr → Instance → Instance
  | [], S => S
  | i :: is, S => instAfterAll is (instAfter i S)

/-- The responses of a list of commands. -/
def responsesOf : List Instr → Instance → List Response
  | [], _ => []
  | i :: is, S => responseOf i S :: responsesOf is (instAfter i S)

/-- Everything a list of commands can do. -/
theorem execAll_eq (is : List Instr) (s : State) :
    execAll is s =
      .next { s with inst := instAfterAll is s.inst, outstanding := s.outstanding ++ responsesOf is s.inst } := by
  induction is generalizing s with
  | nil => simp [execAll, instAfterAll, responsesOf]
  | cons i is ih => simp only [execAll, exec_eq, ih, responsesOf, instAfterAll]; simp [answered]

theorem responsesOf_length (is : List Instr) (S : Instance) : (responsesOf is S).length = is.length := by
  induction is generalizing S <;> simp [responsesOf, *]

theorem responsesOf_append (is js : List Instr) (S : Instance) :
    responsesOf (is ++ js) S = responsesOf is S ++ responsesOf js (instAfterAll is S) := by
  induction is generalizing S <;> simp [responsesOf, instAfterAll, *]

theorem instAfterAll_append (is js : List Instr) (S : Instance) :
    instAfterAll (is ++ js) S = instAfterAll js (instAfterAll is S) := by
  induction is generalizing S <;> simp [instAfterAll, *]

/-- An `APPEND` of any byte count is one chunk (R109). -/
theorem instAfter_append {i : Instr} (h : isAppend i = true) {S : Instance} (hc : S.constructed = true) :
    instAfter i S = appendChunk (appendedBytes i) S := by
  cases i <;> simp [isAppend] at h <;> simp [instAfter, appendAfter, hc, appendedBytes]

end Sys2Proof.Machine
end

