-- ==== Sys2Proof/Laws/Stream.lean ====
section
/-! SUPPORT. Byte absorption against the stream: how one more byte moves the block mix, the pending word and the clean tail. -/

namespace Sys2Proof.Machine

/-- Whole blocks first, the rest after them (R96). -/
theorem mixAll_append (k : Nat) (xs ys : List Byte) (h : Word) (hl : xs.length = 4 * k) :
    mixAll h (xs ++ ys) = mixAll (mixAll h xs) ys := by
  induction k generalizing xs h with
  | zero =>
    have hx : xs = [] := List.length_eq_zero_iff.1 (by omega)
    subst hx; simp [mixAll]
  | succ k ih =>
    match xs, hl with
    | a :: b :: c :: d :: rest, hl => simp only [List.cons_append, mixAll]; exact ih rest _ (by simp at hl; omega)
    | [], hl => simp at hl
    | [_], hl => simp at hl; omega
    | [_, _], hl => simp at hl; omega
    | [_, _, _], hl => simp at hl; omega

/-- The clean tail as a bound (R33). -/
theorem cleanTail_iff_lt (S : Instance) : cleanTail S ↔ S.pendingWord.toNat < 2 ^ (8 * S.pendingCount.val) := by
  unfold cleanTail
  rw [← BitVec.toNat_inj]
  simp [Nat.shiftRight_eq_div_pow]

/-- Absorbing a byte keeps the clean tail (R33, R105). -/
theorem cleanTail_absorbByte (b : Byte) (S : Instance) (h : cleanTail S) : cleanTail (absorbByte b S) := by
  by_cases hk : S.pendingCount = 3
  · rw [absorbByte_block _ _ hk]; simp [cleanTail]
  · rw [absorbByte_pending _ _ hk]
    have hlt : S.pendingCount.val < 3 := by
      have := S.pendingCount.isLt
      rcases Nat.lt_or_ge S.pendingCount.val 3 with h | h
      · exact h
      · exact absurd (Fin.ext (by show _ = 3; omega)) hk
    rw [cleanTail_iff_lt] at *
    have hv : (S.pendingCount + 1).val = S.pendingCount.val + 1 := by simp [Fin.val_add]; omega
    simp only [hv, BitVec.toNat_or]
    apply Nat.or_lt_two_pow
    · exact lt_of_lt_of_le h (Nat.pow_le_pow_right (by decide) (by omega))
    · have hb := b.isLt
      simp only [BitVec.toNat_shiftLeft, zext32, BitVec.toNat_setWidth]
      refine lt_of_le_of_lt (Nat.mod_le _ _) ?_
      rw [Nat.shiftLeft_eq, Nat.mod_eq_of_lt (by omega)]
      calc b.toNat * 2 ^ (8 * S.pendingCount.val) < 2 ^ 8 * 2 ^ (8 * S.pendingCount.val) :=
            Nat.mul_lt_mul_of_pos_right hb (by positivity)
        _ = _ := by rw [← pow_add]; congr 1; omega

/-- The count keeps step with the bytes modulo 4 (R27, R105). -/
theorem countMatches_absorbByte (b : Byte) (S : Instance) (h : countMatches S) : countMatches (absorbByte b S) := by
  unfold countMatches at *
  rw [absorbByte_pendingCount, absorbByte_totalBytes, h]; simp

/-- `total_bytes` counts every byte (R29, R105). -/
theorem absorbBytes_totalBytes (bs : List Byte) (S : Instance) :
    (absorbBytes bs S).totalBytes = S.totalBytes + BitVec.ofNat 64 bs.length := by
  induction bs generalizing S with
  | nil => simp
  | cons b bs ih =>
    rw [absorbBytes_cons, ih, absorbByte_totalBytes, List.length_cons, BitVec.add_assoc, Nat.add_comm, BitVec.ofNat_add]

end Sys2Proof.Machine
end

