-- ==== Sys2Proof/Tests/Slice0.lean ====
section
/-! SUPPORT. The model's own tests, expected values from 95_test_vectors.md (its section is named at each group), and for every statement with
hypotheses a witness that meets them. -/

namespace Sys2Proof.Tests

open Sys2Proof Sys2Proof.Machine

/-! ### Well-formedness -/

theorem test_wellFormed_digestb_three : (Instr.digestb 3#3).wellFormed = true := by decide
theorem test_wellFormed_refuses_digestb_four : (Instr.digestb 4#3).wellFormed = false := by decide
theorem test_wellFormed_refuses_digestb_seven : (Instr.digestb 7#3).wellFormed = false := by decide

/-! ### Decoding: section 2.3 to 2.7, one word per constructor and the illegal words -/

theorem test_decode_init : decode 0x0100000012345678#64 = some (.init 0x12345678#32) := by decide
theorem test_decode_reset : decode 0x0200000000000000#64 = some .reset := by decide
theorem test_decode_append0 : decode 0x0300000000000000#64 = some .append0 := by decide
theorem test_decode_append1 : decode 0x0300000100000021#64 = some (.append1 0x21#8) := by decide
theorem test_decode_append2 : decode 0x0300000200006574#64 = some (.append2 0x74#8 0x65#8) := by decide
theorem test_decode_append3 : decode 0x0300000300876543#64 = some (.append3 0x43#8 0x65#8 0x87#8) := by decide
theorem test_decode_append4 : decode 0x0300000407060504#64 = some (.append4 0x04#8 0x05#8 0x06#8 0x07#8) := by decide
theorem test_decode_digest : decode 0x0400000000000000#64 = some .digest := by decide
theorem test_decode_digestb : decode 0x0500000300000000#64 = some (.digestb 3#3) := by decide
theorem test_decode_size : decode 0x0600000000000000#64 = some .size := by decide
theorem test_decode_blksz : decode 0x0700000000000000#64 = some .blksz := by decide

theorem test_decode_illegal :
    [0x0000000000000000#64, 0x0100000100000000#64, 0x0180000000000000#64, 0x0200000000000001#64, 0x0300000000000001#64,
      0x0300000200016574#64, 0x0300000500000000#64, 0x0400000100000000#64, 0x0400000800000000#64, 0x0500000400000000#64,
      0x05000000000000FF#64, 0x0800000000000000#64, 0xFF00000000000000#64].all
      (fun w => decode w == none && illFormed w) = true := by decide

theorem test_tableWord_append1 : decodeTableWord 64 0x0300000100000021 = some (.append1 0x21#8) := by decide
theorem test_tableWord_too_wide : decodeTableWord 72 0x0300000100000021 = none := by decide

/-! ### Assembler: section 4, and 30_encoding.md R79 to R82 -/

/-- A byte list in braces. -/
def braced (cs : String) : List Char := Char.ofNat 123 :: (cs.toList ++ [Char.ofNat 125])

theorem test_assemble_init : assembleLine "INIT 0x9747B28C ; seed".toList = some [0x010000009747B28C#64] := by decide
theorem test_assemble_append : assembleLine ("APPEND ".toList ++ braced "0x74, 0x65") = some [0x0300000200006574#64] := by decide
theorem test_assemble_digestb : assembleLine "DIGESTB 3".toList = some [0x0500000300000000#64] := by decide
theorem test_assemble_digestb_four : assembleLine "DIGESTB 4".toList = none := by decide
theorem test_assemble_appends :
    assembleLine ("APPENDS ".toList ++ [Char.ofNat 34] ++ "testx".toList ++ [Char.ofNat 34]) =
      some [0x0300000474736574#64, 0x0300000100000078#64] := by decide

/-! ### Datapath: sections 2.1, 2.2 and 3 -/

theorem test_rotl32 : rotl32 0x12345678#32 15 = 0x2B3C091A#32 ∧ rotl32 0x12345678#32 13 = 0x8ACF0246#32 := by decide
theorem test_mixK : mixK 0x74736574#32 = 0x465F51E8#32 ∧ mixK 0xFFFFFFFF#32 = 0xBBEEB010#32 := by decide
theorem test_blockMix : blockMix 0#32 0x74736574#32 = 0x7985975B#32 ∧ blockMix 0xFFFFFFFF#32 0xFFFFFFFF#32 = 0xB849F5EE#32 := by decide
theorem test_fMix : fMix 0x80000000#32 = 0x6D3C65A0#32 ∧ fMix 0x7985975F#32 = 0xBA6BD213#32 := by decide
theorem test_finalize : finalize 0#32 0x00654321#32 3#64 = 0x7E4A8634#32 := by decide
theorem test_finalize_low_count : finalize 0x7985975B#32 0#32 0x100000004#64 = 0xBA6BD213#32 := by decide
theorem test_murmur3_tail : murmur3 0#32 [0x21#8, 0x43#8] = 0xA0F7B07A#32 := by decide
theorem test_murmur3_seeded : murmur3 0x5082EDEE#32 [0x21#8, 0x43#8, 0x65#8, 0x87#8] = 0x2362F9DE#32 := by decide

/-! ### One command each: sections 2.3 to 2.6 -/

/-- A step answered a next state with the property `p`. -/
def nextSatisfies (r : Result) (p : State → Bool) : Bool :=
  match r with
  | .next t => p t
  | .fault _ => false
  | .refused _ => false

/-- A machine whose object has seed 0 and the fields given. -/
def withFields (rh pw : Word) (pc : Fin 4) (tb : ByteCount) (ld : Word) : State :=
  { State.reset with
    inst :=
      { construct 0#32 with
        runningHash := rh
        pendingWord := pw
        pendingCount := pc
        totalBytes := tb
        lastDigest := ld
        mode := .accumulating } }

/-- The row `rh`, `pw`, `pc`, `tb`, `ld` of a table, and the response. -/
def showsRow (r : Response) (rh pw : Word) (pc : Fin 4) (tb : ByteCount) (ld : Word) (t : State) : Bool :=
  t.outstanding == [r] && t.inst.runningHash == rh && t.inst.pendingWord == pw && t.inst.pendingCount == pc &&
    t.inst.totalBytes == tb && t.inst.lastDigest == ld

theorem test_init_one :
    nextSatisfies (exec (.init 1#32) State.reset) (showsRow ⟨.ok, 0⟩ 1#32 0#32 0 0#64 0x514E28B7#32) = true := by decide
theorem test_init_replaces :
    nextSatisfies (exec (.init 0x9747B28C#32) (withFields 7#32 5#32 1 9#64 3#32))
      (showsRow ⟨.ok, 0⟩ 0x9747B28C#32 0#32 0 0#64 0xEBB6C228#32) = true := by decide

theorem test_append0_nothing :
    nextSatisfies (exec .append0 (withFields 0#32 0x21#32 1 1#64 0x72661CF4#32))
      (showsRow ⟨.ok, 0⟩ 0#32 0x21#32 1 1#64 0x72661CF4#32) = true := by decide
theorem test_append1_completes_block :
    nextSatisfies (exec (.append1 0x74#8) (withFields 0#32 0x00736574#32 3 3#64 0x0BB90E5A#32))
      (showsRow ⟨.ok, 1⟩ 0x7985975B#32 0#32 0 4#64 0xBA6BD213#32) = true := by decide
theorem test_append1_zero_counts :
    nextSatisfies (exec (.append1 0#8) (withFields 0#32 0#32 0 0#64 0#32)) (fun t => t.inst.lastDigest == 0x514E28B7#32) = true := by
  decide
/-- Program P2's first append, from section 2.4's trace A1 (two of its rows at once). -/
theorem test_append2_pending :
    nextSatisfies (exec (.append2 0x74#8 0x65#8) (withFields 0#32 0#32 0 0#64 0#32))
      (showsRow ⟨.ok, 2⟩ 0#32 0x6574#32 2 2#64 0xEDB8EE1B#32) = true := by decide
theorem test_append3_completes_block :
    nextSatisfies (exec (.append3 0x43#8 0x65#8 0x87#8) (withFields 0#32 0x21#32 1 1#64 0x72661CF4#32))
      (showsRow ⟨.ok, 3⟩ 0xBB095DB4#32 0#32 0 4#64 0xF55B516B#32) = true := by decide
theorem test_append4_leaves_three :
    nextSatisfies (exec (.append4 4#8 5#8 6#8 7#8) (withFields 0#32 0x00030201#32 3 3#64 0x80D1D204#32))
      (showsRow ⟨.ok, 4⟩ 0x4EB26727#32 0x00070605#32 3 7#64 0xFC5897B5#32) = true := by decide
theorem test_append4_ones :
    nextSatisfies (exec (.append4 0xFF#8 0xFF#8 0xFF#8 0xFF#8) (withFields 0#32 0#32 0 0#64 0#32))
      (showsRow ⟨.ok, 4⟩ 0x145EE0D5#32 0#32 0 4#64 0x76293B50#32) = true := by decide

theorem test_reset_keeps_seed :
    nextSatisfies (exec .reset { State.reset with inst := { construct 0x5082EDEE#32 with pendingCount := 3, totalBytes := 3#64 } })
      (showsRow ⟨.ok, 0⟩ 0x5082EDEE#32 0#32 0 0#64 0x4CAF54BC#32) = true := by decide
theorem test_reset_without_object :
    nextSatisfies (exec .reset State.reset) (fun t => t.outstanding == [⟨.notConstructed, 0⟩] && t.inst == State.reset.inst) = true := by
  decide

theorem test_digest : nextSatisfies (exec .digest (withFields 0x7985975B#32 0#32 0 4#64 0xBA6BD213#32))
    (showsRow ⟨.ok, 0xBA6BD213#32⟩ 0x7985975B#32 0#32 0 4#64 0xBA6BD213#32) = true := by decide
theorem test_digest_without_object :
    nextSatisfies (exec .digest State.reset) (fun t => t.outstanding == [⟨.notConstructed, 0⟩]) = true := by decide

theorem test_digestb_bytes :
    [(0#3, 0xBA#32), (1#3, 0x6B#32), (2#3, 0xD2#32), (3#3, 0x13#32)].all (fun p =>
      nextSatisfies (exec (.digestb p.1) (withFields 0x7985975B#32 0#32 0 4#64 0xBA6BD213#32))
        (fun t => t.outstanding == [⟨.ok, p.2⟩])) = true := by decide
/-- 60_exceptions.md R129: ill-formedness comes before the missing object. -/
theorem test_digestb_four_without_object :
    nextSatisfies (exec (.digestb 4#3) State.reset) (fun t => t.outstanding == [⟨.illegalEncoding, 0⟩]) = true := by decide

theorem test_size_at_reset : nextSatisfies (exec .size State.reset) (fun t => t.outstanding == [⟨.ok, 4⟩]) = true := by decide
theorem test_blksz_at_reset : nextSatisfies (exec .blksz State.reset) (fun t => t.outstanding == [⟨.ok, 1⟩]) = true := by decide

/-! ### The step -/

/-- Section 2.3's third row, as the first word after power-on reset. -/
theorem test_step_runs_first_word :
    nextSatisfies (step (State.reset.withFetchWord 64 0x01000000FFFFFFFF))
      (fun t => t.outstanding == [⟨.ok, 0⟩] && t.inst.lastDigest == 0x81F16F39#32 && t.commands == []) = true := by decide
theorem test_step_illegal_word :
    nextSatisfies (step (State.reset.withFetchWord 64 0x0300000500000000))
      (fun t => t.outstanding == [⟨.illegalEncoding, 0⟩] && t.inst == State.reset.inst) = true := by decide
/-- 70_reset_and_hazards.md R146: the object and the untaken response are gone. -/
theorem test_step_power_on_reset :
    nextSatisfies (step { withFields 0#32 0#32 0 0#64 0#32 with edges := [.resetEdge], outstanding := [⟨.ok, 4⟩] })
      (fun t => !t.inst.constructed && t.outstanding == []) = true := by decide
/-- 30_encoding.md R81, R82, on the responses of program P1 (section 4). -/
theorem test_host_append_bytes :
    hostAppendBytes [] [⟨.ok, 0xBA#32⟩, ⟨.ok, 0x6B#32⟩, ⟨.ok, 0xD2#32⟩, ⟨.ok, 0x13#32⟩] = [0xBA#8, 0x6B#8, 0xD2#8, 0x13#8] ∧
      hostAppendWords [] [⟨.ok, 0xBA6BD213#32⟩] = [0xBA#8, 0x6B#8, 0xD2#8, 0x13#8] := by decide

/-! ### Witnesses: each statement's hypotheses are met, clause by clause, at boundary values -/

/-- An object that has absorbed "te" with seed 0, with one untaken response. -/
def objectTe : State :=
  { withFields 0#32 0x6574#32 2 2#64 0xEDB8EE1B#32 with outstanding := [⟨.ok, 2⟩] }

/-- The machine with one word presented at the next edge. -/
def presenting (w : Command) (s : State) : State := { s with commands := [w], edges := [.cmdEdge], outstanding := [] }

theorem objectTe_instanceInv : instanceInv objectTe.inst := fun _ =>
  ⟨by unfold countMatches; decide, by unfold digestConsistent; decide, by unfold cleanTail; decide, fun h => by cases h⟩

theorem objectTe_outstandingWithin : outstandingWithin objectTe := by
  intro k hk
  unfold Config.maxOutstanding at hk
  cases h : Config.extraOutstanding <;> simp [h] at hk
  simp [objectTe, ← hk]

theorem witness_EachRowDecodesBySelection :
    (0x01000000FFFFFFFF#64 &&& 0xFFFFFFFF00000000#64 = 0x0100000000000000#64) ∧
    (0x03000001000000FF#64 &&& 0xFFFFFFFFFFFFFF00#64 = 0x0300000100000000#64) ∧
    (0x030000020000FFFF#64 &&& 0xFFFFFFFFFFFF0000#64 = 0x0300000200000000#64) ∧
    (0x0300000300FFFFFF#64 &&& 0xFFFFFFFFFF000000#64 = 0x0300000300000000#64) ∧
    (0x03000004FFFFFFFF#64 &&& 0xFFFFFFFF00000000#64 = 0x0300000400000000#64) ∧
    (0x0500000300000000#64 &&& 0xFFFFFFFCFFFFFFFF#64 = 0x0500000000000000#64) := by decide

theorem witness_DecodeAndEncodeAgree :
    decode 0x0500000300000000#64 = some (.digestb 3#3) ∧ (Instr.digestb 3#3).wellFormed = true ∧
      encode (.digestb 3#3) = 0x0500000300000000#64 := by decide

theorem witness_IllFormedWordsAnswerIllegal :
    ∃ (w : Command) (s : State), illFormed w = true ∧ s.edges = [.cmdEdge] ∧ s.commands = [w] ∧ cmdReady s = true :=
  ⟨0x0500000400000000#64, presenting 0x0500000400000000#64 objectTe, by decide, rfl, rfl, rfl⟩

theorem witness_NoWordHasTwoRows :
    decode 0x0800000000000000#64 = none ∧
      0x03000001000000FF#64 &&& rowMask (.append1 0#8) = rowMatch (.append1 0#8) ∧
      0x03000001000000FF#64 &&& rowMask (.append1 0xFF#8) = rowMatch (.append1 0xFF#8) := by decide

theorem witness_AppendLanesInOrder :
    (decode 0x03000004FFFFFFFF#64 = some (.append4 0xFF#8 0xFF#8 0xFF#8 0xFF#8) ∧
      isAppend (.append4 0xFF#8 0xFF#8 0xFF#8 0xFF#8) = true) ∧
    (decode 0x0300000000000000#64 = some .append0 ∧ isAppend .append0 = true) ∧
    (isAppend (.append1 7#8) = true ∧ 0 < (appendedBytes (.append1 7#8)).length) ∧
    (isAppend (.append4 1#8 2#8 3#8 4#8) = true ∧ 3 < (appendedBytes (.append4 1#8 2#8 3#8 4#8)).length) := by decide

theorem witness_AssemblerReadsEachCommand :
    (Instr.init 0xFFFFFFFF#32).wellFormed = true ∧ (Instr.append4 0#8 0xFF#8 1#8 2#8).wellFormed = true ∧
      (Instr.digestb 3#3).wellFormed = true := by decide

theorem witness_StepRunsDecodedCommand :
    ∃ (s : State) (w : Command) (i : Instr), s.edges = [.cmdEdge] ∧ s.commands = [w] ∧ cmdReady s = true ∧ decode w = some i :=
  ⟨presenting 0x0300000100000021#64 objectTe, _, .append1 0x21#8, rfl, rfl, rfl, by decide⟩

theorem witness_FullBlockHoldsCommand :
    ∃ (s : State) (w : Command), s.edges = [.cmdEdge] ∧ s.commands = [w] ∧ s.outstanding = [⟨.ok, 2⟩] :=
  ⟨{ objectTe with commands := [0#64], edges := [.cmdEdge] }, _, rfl, rfl, rfl⟩

theorem witness_HoldEndsWithTakenResponse :
    (∃ s t : State, step s = .next t ∧ s.edges.head? ≠ some .respEdge ∧ s.edges.head? ≠ some .resetEdge ∧ cmdReady t = true) ∧
    ∃ (s : State) (r : Response), outstandingWithin s ∧ s.edges = [.respEdge] ∧ s.outstanding = [r] :=
  ⟨⟨State.reset, State.reset, rfl, by decide, by decide, rfl⟩,
    ⟨{ objectTe with edges := [.respEdge] }, _, objectTe_outstandingWithin, rfl, rfl⟩⟩

theorem witness_ResponseEdgeTakesOldest :
    (∃ (s : State) (r : Response), s.edges = [.respEdge] ∧ s.outstanding = [r]) ∧
    ∃ s : State, s.edges = [.respEdge] ∧ s.outstanding = [] :=
  ⟨⟨{ objectTe with edges := [.respEdge] }, _, rfl, rfl⟩, ⟨{ State.reset with edges := [.respEdge] }, rfl, rfl⟩⟩

theorem witness_PowerOnResetClearsObject :
    ∃ s : State, s.edges = [.resetEdge] ∧ s.inst.constructed = true ∧ s.outstanding ≠ [] :=
  ⟨{ objectTe with edges := [.resetEdge] }, rfl, rfl, by decide⟩

theorem witness_IdleKeepsState :
    objectTe.edges = [] ∧ ∃ s : State, s.edges = [.cmdEdge] ∧ s.commands = [] :=
  ⟨rfl, ⟨{ objectTe with edges := [.cmdEdge] }, rfl, rfl⟩⟩

theorem witness_OneResponseEachInOrder : ∃ s t : State, step s = .next t ∧ t.outstanding = [⟨.ok, 4⟩] :=
  ⟨presenting 0x0600000000000000#64 objectTe, _, rfl, rfl⟩

theorem witness_EveryWordAnsweredOnce :
    (∃ t, acceptCommand 0#64 State.reset = .next t ∧ t.outstanding = [⟨.illegalEncoding, 0⟩]) ∧
      ∃ t, acceptCommand 0x0700000000000000#64 State.reset = .next t ∧ t.outstanding = [⟨.ok, 1⟩] :=
  ⟨⟨_, rfl, rfl⟩, ⟨_, rfl, rfl⟩⟩

theorem witness_StatusByPriority :
    (priorityStatus 0x0500000400000000#64 false = .illegalEncoding) ∧ (priorityStatus 0x0500000300000000#64 false = .notConstructed) ∧
      (priorityStatus 0x0500000300000000#64 true = .ok) ∧ (priorityStatus 0x0600000000000000#64 false = .ok) := by decide

theorem witness_ErrorsChangeNothing :
    ∃ (w : Command) (s t : State) (r : Response),
      acceptCommand w s = .next t ∧ t.outstanding = s.outstanding ++ [r] ∧ r.status ≠ .ok :=
  ⟨0x0200000000000000#64, State.reset, _, ⟨.notConstructed, 0⟩, rfl, rfl, by decide⟩

theorem witness_ConstructedBitRule :
    ((Instr.digestb 3#3).wellFormed = true ∧ needsObject (.digestb 3#3) = true ∧ State.reset.inst.constructed = false) ∧
    ∃ s t : State, step s = .next t ∧ s.inst.constructed = true ∧ t.inst.constructed = false :=
  ⟨by decide, ⟨{ objectTe with edges := [.resetEdge] }, _, rfl, rfl, rfl⟩⟩

theorem witness_HiddenStateNotRead :
    (∃ s s' : State, s.inst.lastDigest = s'.inst.lastDigest ∧ s.inst.constructed = s'.inst.constructed ∧ s.inst ≠ s'.inst) ∧
    ∃ s s' : State, s.inst.lastDigest = s'.inst.lastDigest ∧ s.inst.constructed ≠ s'.inst.constructed :=
  ⟨⟨objectTe, withFields 9#32 0#32 0 8#64 0xEDB8EE1B#32, rfl, rfl, by decide⟩,
    ⟨State.reset, withFields 9#32 0#32 0 8#64 0#32, rfl, by decide⟩⟩

theorem witness_ResetRestoresFreshObject : objectTe.inst.constructed = true ∧ objectTe.inst.totalBytes ≠ 0#64 := by decide

theorem witness_PartialResetExcluded : objectTe.inst.constructed = true ∧ objectTe.inst.pendingCount = 2 := by decide

/-- `AppendResult` clause by clause: an empty chunk; no block completed, at `k + n = 1` and `k + n = 3`; a block completed, at `k + n = 4` and 7. -/
theorem witness_AppendResult :
    (isAppend .append0 = true ∧ objectTe.inst.constructed = true ∧ (appendedBytes .append0).length = 0) ∧
    (isAppend (.append1 7#8) = true ∧ (withFields 0 0 0 0 0).inst.constructed = true ∧
      (withFields 0 0 0 0 0).inst.pendingCount.val + (appendedBytes (.append1 7#8)).length = 1) ∧
    (isAppend (.append1 7#8) = true ∧ objectTe.inst.pendingCount.val + (appendedBytes (.append1 7#8)).length = 3) ∧
    (isAppend (.append2 7#8 8#8) = true ∧ objectTe.inst.pendingCount.val + (appendedBytes (.append2 7#8 8#8)).length = 4) ∧
    (isAppend (.append4 4#8 5#8 6#8 7#8) = true ∧ (withFields 0 0x030201#32 3 3 0).inst.constructed = true ∧
      (withFields 0 0x030201#32 3 3 0).inst.pendingCount.val + (appendedBytes (.append4 4#8 5#8 6#8 7#8)).length = 7) := by decide

theorem witness_DigestReturnsLastDigest : objectTe.inst.constructed = true ∧ State.reset.inst.constructed = false := by decide

theorem witness_DigestbReturnsOneByte :
    ((0#3).toNat ≤ 3 ∧ (3#3).toNat ≤ 3 ∧ objectTe.inst.constructed = true) ∧ ((3#3).toNat ≤ 3 ∧ State.reset.inst.constructed = false) ∧
      (3 < (4#3).toNat ∧ 3 < (7#3).toNat) := by decide

theorem witness_SerializedDigestIsBigEndian :
    objectTe.inst.constructed = true ∧ (serializeDigest objectTe.inst.lastDigest)[0]? = some 0xED#8 ∧
      (serializeDigest objectTe.inst.lastDigest)[3]? = some 0x1B#8 := by decide

theorem witness_OnlyInitWritesSeed :
    (∃ t, exec (.append2 7#8 8#8) objectTe = .next t) ∧ (∀ seed, Instr.append2 7#8 8#8 ≠ .init seed) ∧
      objectTe.inst.constructed = true :=
  ⟨⟨_, rfl⟩, by simp, rfl⟩

theorem witness_ModeIsWrittenNotRead :
    (∃ t, exec (.init 1#32) objectTe = .next t) ∧ (∃ t, exec .reset objectTe = .next t) ∧ objectTe.inst.constructed = true ∧
    (∃ t, exec (.append1 7#8) objectTe = .next t ∧ isAppend (.append1 7#8) = true ∧ 1 ≤ (appendedBytes (.append1 7#8)).length) ∧
    (∃ t, exec .append0 objectTe = .next t ∧ isAppend .append0 = true ∧ (appendedBytes .append0).length = 0) ∧
    (∃ t, exec (.digestb 3#3) objectTe = .next t ∧ isQuery (.digestb 3#3) = true) :=
  ⟨⟨_, rfl⟩, ⟨_, rfl⟩, rfl, ⟨_, rfl, rfl, by decide⟩, ⟨_, rfl, rfl, rfl⟩, ⟨_, rfl, rfl⟩⟩

/-- The invariant with a pending word, a presented `APPEND`, and a step. -/
theorem witness_StepKeepsInvariant : ∃ s t : State, stateInv s ∧ s.inst.constructed = true ∧ step s = .next t := by
  refine ⟨presenting 0x0300000100000021#64 objectTe, _, ⟨objectTe_instanceInv, ?_, ?_⟩, rfl, rfl⟩
  · intro k _; exact Nat.zero_le k
  · intro r hr; simp [observation, presenting, objectTe, withFields, State.reset] at hr

theorem witness_RotateMovesEachBit :
    (0 < 1 ∧ 1 < 32 ∧ 0 < 32) ∧ (0 < 31 ∧ 31 < 32) ∧ (rotl32 0x80000001#32 1 = 0x00000003#32) ∧
      (rotl32 0x80000001#32 31 = 0xC0000000#32) := by decide

theorem witness_EmptyTailFoldsToNothing : (0#64).toNat % 2 ^ 32 = (0x100000000#64).toNat % 2 ^ 32 := by decide

theorem witness_SmallValuesPassXorShift : (0x1FFF#32).toNat < 2 ^ 13 ∧ (0xFFFF#32).toNat < 2 ^ 16 := by decide

/-- Chunks of 3, 0 and 4 bytes. -/
def someAppends : List Instr := [.append3 1#8 2#8 3#8, .append0, .append4 4#8 5#8 6#8 7#8]

theorem witness_StreamingEquivalence : ∀ i ∈ someAppends, isAppend i = true := by decide

theorem witness_StreamViewIsKept :
    (∃ s : State, matchesGhost s.inst (some (5#32, [1#8, 2#8])) ∧ s.inst.constructed = true) ∧ matchesGhost State.reset.inst none ∧
      ∀ i ∈ Instr.digestb 3#3 :: .reset :: someAppends, i.wellFormed = true :=
  ⟨⟨{ State.reset with inst := instanceOfStream 5#32 [1#8, 2#8] }, rfl, rfl⟩, rfl, by decide⟩

theorem witness_DigestReflectsWholeStream :
    State.reset.inst.constructed = false ∧ (∀ i ∈ Instr.init 5#32 :: someAppends, i.wellFormed = true) ∧
      ghostAll (.init 5#32 :: someAppends) none = some (5#32, [1#8, 2#8, 3#8, 4#8, 5#8, 6#8, 7#8]) := by decide

theorem witness_MachineRefinesReference :
    (∃ s : State, matchesGhost s.inst (some (5#32, [1#8])) ∧ s.commands = [] ∧ s.edges = [] ∧ s.outstanding = []) ∧
      (matchesGhost State.reset.inst none ∧ State.reset.commands = [] ∧ State.reset.edges = [] ∧ State.reset.outstanding = []) :=
  ⟨⟨{ State.reset with inst := instanceOfStream 5#32 [1#8] }, rfl, rfl, rfl, rfl⟩, rfl, rfl, rfl, rfl⟩

theorem witness_PowerOnValuesUnobservable :
    ∃ S S' : Instance, S.constructed = false ∧ S'.constructed = false ∧ S ≠ S' :=
  ⟨State.reset.inst, { objectTe.inst with constructed := false }, rfl, rfl, by decide⟩

theorem witness_ResetEquivalence :
    (∀ i ∈ Instr.digest :: .blksz :: someAppends, isAppend i = true ∨ isQuery i = true) ∧ ∀ i ∈ someAppends, isAppend i = true := by
  decide

theorem witness_ResetIsIdempotent :
    (∃ t, exec .reset objectTe = .next t ∧ t.inst.constructed = true) ∧ ∃ t, exec .reset State.reset = .next t :=
  ⟨⟨_, rfl, rfl⟩, ⟨_, rfl⟩⟩

theorem witness_AppendsExpansionConsumesAll :
    objectTe.inst.constructed = true ∧ (∀ i ∈ someAppends, isAppend i = true) ∧
      someAppends.flatMap appendedBytes = [1#8, 2#8, 3#8, 4#8, 5#8, 6#8, 7#8] := by decide

theorem witness_DigestAppendFormsAgree : objectTe.inst.constructed = true := rfl

theorem witness_QueriesInsertAnywhere : isQuery (.digestb 7#3) = true ∧ isQuery .size = true := by decide

theorem witness_SourceFaithfulHostSeesOnlyOk :
    (State.reset.commands = [] ∧ State.reset.edges = [] ∧ State.reset.outstanding = []) ∧
      (∀ i ∈ Instr.size :: .init 5#32 :: .digestb 3#3 :: someAppends, i.wellFormed = true) ∧
      initFirst State.reset.inst.constructed (.size :: .init 5#32 :: .digestb 3#3 :: someAppends) = true := by decide

theorem witness_InstancesShareNothing : ([State.reset, objectTe] : List State)[1]? = some objectTe := rfl

end Sys2Proof.Tests
end

section
/-! PROOF. The hasher's state (10_state.md): what each class of command does to each field, and what a response reads. -/

namespace Sys2Proof.Machine

/-! ### The digest of a fresh object -/

theorem tailMix_zero : tailMix 0#32 = 0#32 := by decide

/-- An empty tail adds nothing to the digest (R102). -/
theorem finalize_zero_tail (h : Word) (tb : ByteCount) : finalize h 0#32 tb = fMix (h ^^^ lowCount tb) := by
  rw [finalize, finalizer, tailMix_zero, BitVec.xor_zero]

/-- The digest of no byte is the avalanche of the seed (R40). -/
theorem finalize_no_bytes (seed : Word) : finalize seed 0#32 0#64 = fMix seed := by
  have hlow : lowCount 0#64 = 0#32 := by decide
  rw [finalize_zero_tail, hlow, BitVec.xor_zero]

/-- The table of R40, field by field. -/
theorem construct_eq (seed : Word) :
    construct seed =
      { constructed := true, seed := seed, runningHash := seed, pendingWord := 0#32, pendingCount := 0, totalBytes := 0#64,
        lastDigest := fMix seed, mode := .empty } := by
  rw [construct, finalize_no_bytes]

/-! ### The classes of commands -/

/-- Every command is `INIT`, `RESET`, an `APPEND` or a query (R65). -/
theorem instr_classes (i : Instr) : (∃ seed, i = .init seed) ∨ i = .reset ∨ isAppend i = true ∨ isQuery i = true := by
  cases i <;> simp [isAppend, isQuery]

theorem inst_of_exec {i : Instr} {s t : State} (h : exec i s = .next t) : t.inst = instAfter i s.inst := by
  rw [exec_eq] at h
  injection h with h
  rw [← h, answered_inst]

theorem instAfter_init (seed : Word) (S : Instance) : instAfter (.init seed) S = construct seed := rfl

theorem instAfter_reset {S : Instance} (hc : S.constructed = true) : instAfter .reset S = construct S.seed := by
  rw [instAfter, if_pos hc, restart_eq_construct S hc]

theorem instAfter_reset_missing {S : Instance} (hc : S.constructed = false) : instAfter .reset S = S := by
  simp [instAfter, hc]

theorem instAfter_of_isAppend {i : Instr} (h : isAppend i = true) (S : Instance) :
    instAfter i S = appendAfter (appendedBytes i) S := by
  cases i <;> cases h <;> rfl

theorem responseOf_of_isAppend {i : Instr} (h : isAppend i = true) (S : Instance) :
    responseOf i S = appendResponse (appendedBytes i) S := by
  cases i <;> cases h <;> rfl

theorem instAfter_of_isQuery {i : Instr} (h : isQuery i = true) (S : Instance) : instAfter i S = S := by
  cases i <;> cases h <;> rfl

/-! ### An `APPEND`, with an object and without one -/

theorem appendAfter_constructed {S : Instance} (hc : S.constructed = true) (bs : List Byte) :
    appendAfter bs S = appendChunk bs S := if_pos hc

theorem appendAfter_missing {S : Instance} (hc : S.constructed = false) (bs : List Byte) : appendAfter bs S = S := by
  simp [appendAfter, hc]

theorem appendAfter_nil (S : Instance) : appendAfter [] S = S := by
  rw [appendAfter, appendChunk_nil, ite_self]

theorem appendChunk_mode {bs : List Byte} (h : bs ≠ []) (S : Instance) : (appendChunk bs S).mode = .accumulating := by
  rw [appendChunk_of_ne_nil h]

/-- `APPEND` touches neither the object's existence nor its seed, with an object and without one (R24, R25). -/
theorem appendAfter_frame (bs : List Byte) (S : Instance) :
    (appendAfter bs S).constructed = S.constructed ∧ (appendAfter bs S).seed = S.seed := by
  cases hc : S.constructed with
  | false => rw [appendAfter_missing hc]; exact ⟨hc, rfl⟩
  | true => rw [appendAfter_constructed hc, ← hc]; exact appendChunk_frame bs S

/-! ### Who writes `constructed` (R24) and `seed` (R25) -/

/-- Without an object the commands that need one change nothing (R24). -/
theorem instAfter_missing {i : Instr} (hn : needsObject i = true) {S : Instance} (hc : S.constructed = false) :
    instAfter i S = S := by
  rcases instr_classes i with ⟨seed, rfl⟩ | rfl | ha | hq
  · cases hn
  · exact instAfter_reset_missing hc
  · rw [instAfter_of_isAppend ha, appendAfter_missing hc]
  · exact instAfter_of_isQuery hq S

/-- No command takes an object away (R24). -/
theorem instAfter_keeps_object (i : Instr) {S : Instance} (hc : S.constructed = true) :
    (instAfter i S).constructed = true := by
  rcases instr_classes i with ⟨seed, rfl⟩ | rfl | ha | hq
  · rfl
  · rw [instAfter_reset hc, construct_constructed]
  · rw [instAfter_of_isAppend ha, (appendAfter_frame _ S).1, hc]
  · rw [instAfter_of_isQuery hq, hc]

theorem acceptCommand_keeps_object {w : Command} {s t : State} (h : acceptCommand w s = .next t)
    (hc : s.inst.constructed = true) : t.inst.constructed = true := by
  cases hd : decode w with
  | none =>
    rw [acceptCommand_of_ill hd] at h
    injection h with h
    rw [← h, answered_inst, hc]
  | some i =>
    rw [acceptCommand_of_decode hd] at h
    injection h with h
    rw [← h, answered_inst, instAfter_keeps_object i hc]

/-- Every step but power-on reset keeps an object (R24). -/
theorem step_keeps_object {s t : State} (h : step s = .next t) (hr : s.edges.head? ≠ some .resetEdge)
    (hc : s.inst.constructed = true) : t.inst.constructed = true := by
  rcases step_cases h with ⟨-, rfl⟩ | ⟨es, -, -, rfl⟩ | ⟨es, w, ws, -, -, -, ha⟩ | ⟨es, -, -, rfl⟩ |
    ⟨es, r, rs, -, -, rfl⟩ | ⟨es, he, -⟩
  · exact hc
  · exact hc
  · exact acceptCommand_keeps_object ha hc
  · exact hc
  · exact hc
  · exact absurd (congrArg List.head? he) hr

theorem instAfter_seed {i : Instr} (hi : ∀ seed, i ≠ .init seed) (S : Instance) : (instAfter i S).seed = S.seed := by
  rcases instr_classes i with ⟨seed, rfl⟩ | rfl | ha | hq
  · exact absurd rfl (hi seed)
  · cases hc : S.constructed with
    | false => rw [instAfter_reset_missing hc]
    | true => rw [instAfter_reset hc, construct_seed]
  · rw [instAfter_of_isAppend ha, (appendAfter_frame _ S).2]
  · rw [instAfter_of_isQuery hq]

/-! ### What a response reads (R36) -/

/-- A well-formed command that needs an object and has none answers NOT_CONSTRUCTED (R128). -/
theorem responseOf_missing {i : Instr} (hw : i.wellFormed = true) (hn : needsObject i = true) {S : Instance}
    (hc : S.constructed = false) : responseOf i S = ⟨.notConstructed, 0#32⟩ := by
  rcases instr_classes i with ⟨seed, rfl⟩ | rfl | ha | hq
  · cases hn
  · simp [responseOf, hc]
  · simp [responseOf_of_isAppend ha, appendResponse, hc]
  · cases i with
    | digest => simp [responseOf, hc]
    | digestb n =>
      have hle : n.toNat ≤ 3 := of_decide_eq_true hw
      simp [responseOf, hc, hle]
    | _ => simp [needsObject, isQuery] at hn hq

theorem responseOf_of_not_needsObject {i : Instr} (hn : needsObject i = false) (S S' : Instance) :
    responseOf i S = responseOf i S' := by
  cases i <;> cases hn <;> rfl

theorem responseOf_of_not_wellFormed {i : Instr} (hw : i.wellFormed = false) (S : Instance) :
    responseOf i S = ⟨.illegalEncoding, 0#32⟩ := by
  cases i with
  | digestb n => exact if_neg (of_decide_eq_false hw)
  | _ => cases hw

/-- A response reads `last_digest` and `constructed` and no other field (R36). -/
theorem responseOf_congr (i : Instr) {S S' : Instance} (hd : S.lastDigest = S'.lastDigest)
    (hc : S.constructed = S'.constructed) : responseOf i S = responseOf i S' := by
  cases i <;> simp only [responseOf, appendResponse, hd, hc]

/-- The bit `constructed` shows only as NOT_CONSTRUCTED: any other answer without an object is the answer in every state (R36). -/
theorem responseOf_missing_cases (i : Instr) {S : Instance} (hc : S.constructed = false) :
    (responseOf i S).status = .notConstructed ∨ ∀ S', responseOf i S = responseOf i S' := by
  cases hw : i.wellFormed with
  | false => exact .inr fun S' => by simp only [responseOf_of_not_wellFormed hw]
  | true =>
    cases hn : needsObject i with
    | false => exact .inr fun S' => responseOf_of_not_needsObject hn S S'
    | true => exact .inl (by rw [responseOf_missing hw hn hc])

/-- R36 for one command in two states with the same digest. -/
theorem responseOf_same_digest (i : Instr) {S S' : Instance} (hd : S.lastDigest = S'.lastDigest) :
    responseOf i S = responseOf i S' ∨
      (S.constructed ≠ S'.constructed ∧
        ((responseOf i S).status = .notConstructed ∨ (responseOf i S').status = .notConstructed)) := by
  by_cases hc : S.constructed = S'.constructed
  · exact .inl (responseOf_congr i hd hc)
  · cases hS : S.constructed with
    | false =>
      rcases responseOf_missing_cases i hS with hm | heq
      · exact .inr ⟨hS ▸ hc, .inl hm⟩
      · exact .inl (heq S')
    | true =>
      have hS' : S'.constructed = false := by simpa [hS] using hc
      rcases responseOf_missing_cases i hS' with hm | heq
      · exact .inr ⟨hS ▸ hc, .inr hm⟩
      · exact .inl (heq S).symm

/-! ### The mode is written and not read (R31) -/

/-- `S` with the mode `m`. -/
def withMode (m : Mode) (S : Instance) : Instance := { S with mode := m }

theorem responseOf_withMode (i : Instr) (m : Mode) (S : Instance) : responseOf i (withMode m S) = responseOf i S :=
  responseOf_congr i rfl rfl

theorem absorbByte_withMode (b : Byte) (m : Mode) (S : Instance) : absorbByte b (withMode m S) = withMode m (absorbByte b S) := by
  by_cases h : S.pendingCount = 3
  · rw [absorbByte_block b S h, absorbByte_block b (withMode m S) h]; rfl
  · rw [absorbByte_pending b S h, absorbByte_pending b (withMode m S) h]; rfl

theorem absorbBytes_withMode (bs : List Byte) (m : Mode) (S : Instance) :
    absorbBytes bs (withMode m S) = withMode m (absorbBytes bs S) := by
  induction bs generalizing S with
  | nil => rfl
  | cons b bs ih => rw [absorbBytes_cons, absorbByte_withMode, ih, absorbBytes_cons]

/-- A chunk of at least one byte overwrites the mode it finds (R31). -/
theorem appendChunk_withMode {bs : List Byte} (h : bs ≠ []) (m : Mode) (S : Instance) :
    appendChunk bs (withMode m S) = appendChunk bs S := by
  rw [appendChunk_of_ne_nil h, appendChunk_of_ne_nil h, absorbBytes_withMode]
  rfl

theorem appendAfter_withMode (bs : List Byte) (m : Mode) (S : Instance) :
    appendAfter bs (withMode m S) = withMode m (appendAfter bs S) ∨ appendAfter bs (withMode m S) = appendAfter bs S := by
  cases hc : S.constructed with
  | false => exact .inl (by rw [appendAfter_missing hc, appendAfter_missing (S := withMode m S) hc])
  | true =>
    by_cases hbs : bs = []
    · exact .inl (by rw [hbs, appendAfter_nil, appendAfter_nil])
    · exact .inr (by rw [appendAfter_constructed hc, appendAfter_constructed (S := withMode m S) hc, appendChunk_withMode hbs])

/-- A command keeps the mode it finds or overwrites it, and does the same to the other fields whatever the mode was (R31). -/
theorem instAfter_withMode (i : Instr) (m : Mode) (S : Instance) :
    instAfter i (withMode m S) = withMode m (instAfter i S) ∨ instAfter i (withMode m S) = instAfter i S := by
  rcases instr_classes i with ⟨seed, rfl⟩ | rfl | ha | hq
  · exact .inr rfl
  · cases hc : S.constructed with
    | false => exact .inl (by rw [instAfter_reset_missing hc, instAfter_reset_missing (S := withMode m S) hc])
    | true => exact .inr (by rw [instAfter_reset hc, instAfter_reset (S := withMode m S) hc]; rfl)
  · simp only [instAfter_of_isAppend ha]
    exact appendAfter_withMode _ m S
  · exact .inl (by rw [instAfter_of_isQuery hq, instAfter_of_isQuery hq])

/-- Another mode before a command changes at most the mode after it (R31). -/
theorem exec_withMode {i : Instr} {s t : State} (h : exec i s = .next t) (m : Mode) :
    ∃ m', exec i { s with inst := withMode m s.inst } = .next { t with inst := withMode m' t.inst } := by
  rw [exec_eq] at h
  injection h with h
  subst h
  simp only [exec_eq, responseOf_withMode]
  rcases instAfter_withMode i m s.inst with hm | hm
  · exact ⟨m, by rw [hm]; rfl⟩
  · exact ⟨(instAfter i s.inst).mode, by rw [hm]; rfl⟩

/-! ### The statements -/

/-- Settles O20: the missing object by command, and power-on reset as the only step that takes an object away. -/
theorem constructedBitRule : Obligations.ConstructedBitRule := by
  refine ⟨fun i s hw hn hc => ?_, fun seed s => ⟨_, exec_eq _ s, rfl⟩, fun s t h hs ht => ?_⟩
  · rw [exec_eq, instAfter_missing hn hc, responseOf_missing hw hn hc]
  · by_contra hr
    exact absurd (step_keeps_object h hr hs) (by rw [ht]; decide)

/-- Settles O21: an ill-formed word reads nothing, and a command reads the digest and whether an object exists. -/
theorem hiddenStateNotRead : Obligations.HiddenStateNotRead := by
  intro w s s' hd
  cases hw : decode w with
  | none => exact ⟨_, _, _, _, acceptCommand_of_ill hw s, acceptCommand_of_ill hw s', .inl rfl⟩
  | some i =>
    exact ⟨_, _, _, _, acceptCommand_of_decode hw s, acceptCommand_of_decode hw s', responseOf_same_digest i hd⟩

/-- Settles O30: `seed` after each class of command, and the fresh object that `INIT` and `RESET` leave. -/
theorem onlyInitWritesSeed : Obligations.OnlyInitWritesSeed := by
  refine ⟨fun seed s => ⟨_, exec_eq _ s, rfl, finalize_no_bytes seed⟩, fun i s t h hi => ?_, fun s hc => ⟨_, exec_eq _ s, ?_⟩⟩
  · rw [inst_of_exec h, instAfter_seed hi]
  · rw [answered_inst, instAfter_reset hc]
    exact ⟨rfl, finalize_no_bytes s.inst.seed⟩

/-- Settles O31: the mode after each class of command, and the same command from another mode. -/
theorem modeIsWrittenNotRead : Obligations.ModeIsWrittenNotRead := by
  refine ⟨⟨rfl, rfl⟩, fun i s t h => ?_, fun i s t m h => exec_withMode h m⟩
  · rw [inst_of_exec h]
    refine ⟨?_, ?_, fun ha hlen hc => ?_, fun ha hlen => ?_, fun hq => ?_⟩
    · rintro seed rfl
      rfl
    · rintro rfl hc
      rw [instAfter_reset hc, construct_mode]
    · rw [instAfter_of_isAppend ha, appendAfter_constructed hc, appendChunk_mode (List.ne_nil_of_length_pos hlen)]
    · rw [instAfter_of_isAppend ha, List.eq_nil_of_length_eq_zero hlen, appendAfter_nil]
    · rw [instAfter_of_isQuery hq]

/-- Settles O22: `INIT` leaves R40's fresh object. -/
theorem initCreatesFreshObject : Obligations.InitCreatesFreshObject := by
  intro seed s
  rw [exec_eq, instAfter_init, construct_eq]
  rfl

/-- Settles O23: `RESET` of an object leaves the fresh object of its seed, with the response of `INIT`. -/
theorem resetRestoresFreshObject : Obligations.ResetRestoresFreshObject := by
  intro s hc
  have hresp : responseOf .reset s.inst = ⟨.ok, 0#32⟩ := if_pos hc
  have hreset : exec .reset s = .next (answered s (construct s.inst.seed) ⟨.ok, 0#32⟩) := by
    rw [exec_eq, instAfter_reset hc, hresp]
  refine ⟨?_, _, _, hreset, exec_eq _ s, rfl⟩
  rw [hreset, construct_eq, hc]

/-- Settles O29: a constant response and no change of the object. -/
theorem constantQueriesInEveryState : Obligations.ConstantQueriesInEveryState :=
  fun s => ⟨exec_eq .size s, exec_eq .blksz s⟩

end Sys2Proof.Machine
end

section
/-! PROOF. The serialized digest (20_memory.md): the four bytes, their order, and the byte a `DIGESTB` answers. -/

namespace Sys2Proof.Machine

theorem serializeDigest_eq (d : Word) :
    serializeDigest d = [d.extractLsb' 24 8, d.extractLsb' 16 8, d.extractLsb' 8 8, d.extractLsb' 0 8] := rfl

/-- The four bytes, most significant first, are the digest (R48). -/
theorem digestBytes_append (d : Word) :
    (d.extractLsb' 24 8 ++ d.extractLsb' 16 8 ++ d.extractLsb' 8 8 ++ d.extractLsb' 0 8 : BitVec 32) = d := by
  have top : d.extractLsb' 24 8 ++ d.extractLsb' 16 8 = d.extractLsb' 16 16 :=
    BitVec.extractLsb'_append_extractLsb'_eq_extractLsb' rfl
  have upper : d.extractLsb' 16 16 ++ d.extractLsb' 8 8 = d.extractLsb' 8 24 :=
    BitVec.extractLsb'_append_extractLsb'_eq_extractLsb' rfl
  have whole : d.extractLsb' 8 24 ++ d.extractLsb' 0 8 = d.extractLsb' 0 32 :=
    BitVec.extractLsb'_append_extractLsb'_eq_extractLsb' rfl
  rw [top, upper, whole, BitVec.extractLsb'_eq_self]

theorem serializeDigest_eq_map_range (d : Word) : serializeDigest d = (List.range 4).map (digestByte · d) := rfl

/-- The serialized digest has the bytes 0 to 3 and no other (R48). -/
theorem serializeDigest_getElem?_eq_some {d : Word} {k : Nat} {b : Byte} :
    (serializeDigest d)[k]? = some b ↔ k < 4 ∧ digestByte k d = b := by
  rw [serializeDigest_eq_map_range, List.getElem?_map, Option.map_eq_some_iff]
  simp [List.getElem?_eq_some_iff]

/-- The two low bits of the field `N` hold every legal index (R70, R73). -/
theorem digestIndex_ofNat {k : Nat} (hk : k < 4) : digestIndex (BitVec.ofNat 3 k) = k := by
  interval_cases k <;> rfl

/-- `DIGESTB` of a legal index on an object answers its byte of the digest, zero-extended (R122). -/
theorem responseOf_digestb {S : Instance} (hc : S.constructed = true) {k : Nat} (hk : k < 4) :
    responseOf (.digestb (BitVec.ofNat 3 k)) S = ⟨.ok, zext32 (digestByte k S.lastDigest)⟩ := by
  have hle : (BitVec.ofNat 3 k).toNat ≤ 3 := by rw [BitVec.toNat_ofNat]; omega
  rw [responseOf, if_pos hle, if_pos hc, digestIndex_ofNat hk]

/-- Settles O28: the four bytes by their position in the digest, and `DIGESTB` as the read of one of them. -/
theorem serializedDigestIsBigEndian : Obligations.SerializedDigestIsBigEndian := by
  refine ⟨fun d => ⟨serializeDigest_eq d, digestBytes_append d⟩, fun s k b hc hb => ?_⟩
  obtain ⟨hk, rfl⟩ := serializeDigest_getElem?_eq_some.1 hb
  rw [exec_eq, instAfter_of_isQuery rfl, responseOf_digestb hc hk, zext32]

end Sys2Proof.Machine
end

section
/-! PROOF. The encoding (30_encoding.md): what a row's match and mask ask of the fields of a word, what the decoder answers opcode by
opcode, and the decoder against R74 and against the table. -/

namespace Sys2Proof

/-! ### Masks and fields -/

/-- A word is its four fields, side by side (R59). -/
theorem fields_append (w : Command) : (opcField w ++ rsvField w ++ nField w ++ dataField w : BitVec 64) = w := by
  have upper : opcField w ++ rsvField w = w.extractLsb' 35 29 := BitVec.extractLsb'_append_extractLsb'_eq_extractLsb' rfl
  have head : w.extractLsb' 35 29 ++ nField w = w.extractLsb' 32 32 := BitVec.extractLsb'_append_extractLsb'_eq_extractLsb' rfl
  have whole : w.extractLsb' 32 32 ++ dataField w = w.extractLsb' 0 64 := BitVec.extractLsb'_append_extractLsb'_eq_extractLsb' rfl
  rw [upper, head, whole, BitVec.extractLsb'_eq_self]

theorem command_eq_iff_fields (w v : Command) :
    w = v ↔ opcField w = opcField v ∧ rsvField w = rsvField v ∧ nField w = nField v ∧ dataField w = dataField v := by
  constructor
  · rintro rfl
    exact ⟨rfl, rfl, rfl, rfl⟩
  · rintro ⟨ho, hr, hn, hd⟩
    rw [← fields_append w, ← fields_append v, ho, hr, hn, hd]

/-- What the row of a command asks of the field `N` (R66 to R72). -/
def nFits : Instr → BitVec 3 → Prop
  | .init _, n => n = 0#3
  | .reset, n => n = 0#3
  | .append0, n => n = 0#3
  | .append1 _, n => n = 1#3
  | .append2 _ _, n => n = 2#3
  | .append3 _ _ _, n => n = 3#3
  | .append4 _ _ _ _, n => n = 4#3
  | .digest, n => n = 0#3
  | .digestb _, n => n.toNat ≤ 3
  | .size, n => n = 0#3
  | .blksz, n => n = 0#3

/-- The opcode of a command's row (R60, R66 to R72). -/
def opcode : Instr → BitVec 8
  | .init _ => 0x01#8
  | .reset => 0x02#8
  | .append0 => 0x03#8
  | .append1 _ => 0x03#8
  | .append2 _ _ => 0x03#8
  | .append3 _ _ _ => 0x03#8
  | .append4 _ _ _ _ => 0x03#8
  | .digest => 0x04#8
  | .digestb _ => 0x05#8
  | .size => 0x06#8
  | .blksz => 0x07#8

/-- How many low lanes of `DATA` the row of a command leaves to its operands; the lanes above are zero (R63). -/
def operandLanes : Instr → Nat
  | .init _ => 4
  | .reset => 0
  | .append0 => 0
  | .append1 _ => 1
  | .append2 _ _ => 2
  | .append3 _ _ _ => 3
  | .append4 _ _ _ _ => 4
  | .digest => 0
  | .digestb _ => 0
  | .size => 0
  | .blksz => 0

theorem nFits_iff_masked (i : Instr) (n : BitVec 3) : nFits i n ↔ n &&& nField (rowMask i) = nField (rowMatch i) := by
  cases i <;> rw [nFits, rowMask, rowMatch] <;> revert n <;> decide

theorem upperLanesZero_iff_masked (k : Nat) (d : Word) : upperLanesZero k d = true ↔ d &&& BitVec.allOnes 32 <<< (8 * k) = 0#32 := by
  rw [upperLanesZero_iff]
  constructor
  · intro h
    ext j hj
    by_cases hk : 8 * k ≤ j
    · simp [← BitVec.getLsbD_eq_getElem, h j hk hj]
    · simp [hk]
  · intro h j hk hj
    have hbit := congrArg (fun x => x.getLsbD j) h
    simpa [-BitVec.reduceAllOnes, hj, Nat.not_lt.2 hk, show j - 8 * k < 32 by omega] using hbit

theorem opcField_rowMask (i : Instr) : opcField (rowMask i) = BitVec.allOnes 8 := by
  cases i <;> rw [rowMask] <;> decide

theorem rsvField_rowMask (i : Instr) : rsvField (rowMask i) = BitVec.allOnes 21 := by
  cases i <;> rw [rowMask] <;> decide

theorem dataField_rowMask (i : Instr) : dataField (rowMask i) = BitVec.allOnes 32 <<< (8 * operandLanes i) := by
  cases i <;> rw [rowMask, operandLanes] <;> decide

theorem opcField_rowMatch (i : Instr) : opcField (rowMatch i) = opcode i := by
  cases i <;> rw [rowMatch, opcode] <;> decide

theorem rsvField_rowMatch (i : Instr) : rsvField (rowMatch i) = 0#21 := by
  cases i <;> rw [rowMatch] <;> decide

theorem dataField_rowMatch (i : Instr) : dataField (rowMatch i) = 0#32 := by
  cases i <;> rw [rowMatch] <;> decide

/-- A row's match and mask ask for its opcode, for `RSV = 0`, and for the row's `N` and zero lanes (R60 to R63, R66 to R72). -/
theorem selects_iff_fields (w : Command) (i : Instr) :
    w &&& rowMask i = rowMatch i ↔
      opcField w = opcode i ∧ rsvField w = 0#21 ∧ nFits i (nField w) ∧
        upperLanesZero (operandLanes i) (dataField w) = true := by
  have hopc : opcField (w &&& rowMask i) = opcField w &&& opcField (rowMask i) := BitVec.extractLsb'_and
  have hrsv : rsvField (w &&& rowMask i) = rsvField w &&& rsvField (rowMask i) := BitVec.extractLsb'_and
  have hn : nField (w &&& rowMask i) = nField w &&& nField (rowMask i) := BitVec.extractLsb'_and
  have hdata : dataField (w &&& rowMask i) = dataField w &&& dataField (rowMask i) := BitVec.extractLsb'_and
  rw [command_eq_iff_fields, hopc, hrsv, hn, hdata, opcField_rowMask, rsvField_rowMask, dataField_rowMask, opcField_rowMatch,
    rsvField_rowMatch, dataField_rowMatch, BitVec.and_allOnes, BitVec.and_allOnes, nFits_iff_masked, upperLanesZero_iff_masked]

/-! ### The decoder, opcode by opcode (R75) -/

theorem decode_of_rsv {w : Command} (hr : rsvField w ≠ 0#21) : decode w = none := if_pos hr

section Opcodes
variable {w : Command} (hr : rsvField w = 0#21)
include hr

theorem decode_init (ho : opcField w = 0x01#8) : decode w = if nField w = 0#3 then some (.init (dataField w)) else none := by
  simp [decode, hr, ho]

theorem decode_reset (ho : opcField w = 0x02#8) :
    decode w = if nField w = 0#3 ∧ dataField w = 0#32 then some .reset else none := by
  simp [decode, hr, ho]

theorem decode_append (ho : opcField w = 0x03#8) : decode w = decodeAppend (nField w) (dataField w) := by
  simp [decode, hr, ho]

theorem decode_digest (ho : opcField w = 0x04#8) :
    decode w = if nField w = 0#3 ∧ dataField w = 0#32 then some .digest else none := by
  simp [decode, hr, ho]

theorem decode_digestb (ho : opcField w = 0x05#8) :
    decode w = if (nField w).toNat ≤ 3 ∧ dataField w = 0#32 then some (.digestb (nField w)) else none := by
  simp [decode, hr, ho]

theorem decode_size (ho : opcField w = 0x06#8) :
    decode w = if nField w = 0#3 ∧ dataField w = 0#32 then some .size else none := by
  simp [decode, hr, ho]

theorem decode_blksz (ho : opcField w = 0x07#8) :
    decode w = if nField w = 0#3 ∧ dataField w = 0#32 then some .blksz else none := by
  simp [decode, hr, ho]

end Opcodes

/-- An opcode is one of the seven, or R74's first condition holds. -/
theorem opcode_cases (o : BitVec 8) :
    o = 0x01#8 ∨ o = 0x02#8 ∨ o = 0x03#8 ∨ o = 0x04#8 ∨ o = 0x05#8 ∨ o = 0x06#8 ∨ o = 0x07#8 ∨
      ¬ (1 ≤ o.toNat ∧ o.toNat ≤ 7) := by
  revert o
  decide

theorem decode_of_opcode_unused {w : Command} (ho : ¬ (1 ≤ (opcField w).toNat ∧ (opcField w).toNat ≤ 7)) : decode w = none := by
  unfold decode
  split
  · rfl
  · split
    case h_8 => rfl
    all_goals omega

/-- The five byte counts of an `APPEND`, or R74's fifth condition. -/
theorem appendCount_cases (n : BitVec 3) : n = 0#3 ∨ n = 1#3 ∨ n = 2#3 ∨ n = 3#3 ∨ n = 4#3 ∨ 4 < n.toNat := by
  revert n
  decide

theorem decodeAppend_of_count_unused {n : BitVec 3} (hn : 4 < n.toNat) (d : Word) : decodeAppend n d = none := by
  unfold decodeAppend
  split
  case h_6 => rfl
  all_goals omega

theorem decodeAppend_eq_none_iff (n : BitVec 3) (d : Word) :
    decodeAppend n d = none ↔ 4 < n.toNat ∨ (n.toNat < 4 ∧ upperLanesZero n.toNat d = false) := by
  rcases appendCount_cases n with rfl | rfl | rfl | rfl | rfl | hn
  · simp [decodeAppend]
  · simp [decodeAppend]
  · simp [decodeAppend]
  · simp [decodeAppend]
  · simp [decodeAppend]
  · simp [decodeAppend_of_count_unused hn, hn]

/-- R74 against R75: the decoder rejects exactly the ill-formed words. -/
theorem decode_eq_none_iff_illFormed (w : Command) : decode w = none ↔ illFormed w = true := by
  by_cases hr : rsvField w = 0#21
  · rcases opcode_cases (opcField w) with ho | ho | ho | ho | ho | ho | ho | ho
    · simp [decode_init hr ho, illFormed, hr, ho]
    · simp [decode_reset hr ho, illFormed, hr, ho, imp_iff_not_or]
    · simp [decode_append hr ho, decodeAppend_eq_none_iff, illFormed, hr, ho]
    · simp [decode_digest hr ho, illFormed, hr, ho, imp_iff_not_or]
    · simp [decode_digestb hr ho, illFormed, hr, ho, imp_iff_not_or, or_comm]
    · simp [decode_size hr ho, illFormed, hr, ho, imp_iff_not_or]
    · simp [decode_blksz hr ho, illFormed, hr, ho, imp_iff_not_or]
    · simp [decode_of_opcode_unused ho, illFormed, ho]
  · simp [decode_of_rsv hr, illFormed, hr]

/-! ### The command in a row (R66 to R73) -/

/-- The command in the row of `i` whose operands are the bits of `w` in the row's operand fields (R73). -/
def rowCommand (w : Command) : Instr → Instr
  | .init _ => .init (w.extractLsb' 0 32)
  | .reset => .reset
  | .append0 => .append0
  | .append1 _ => .append1 (w.extractLsb' 0 8)
  | .append2 _ _ => .append2 (w.extractLsb' 0 8) (w.extractLsb' 8 8)
  | .append3 _ _ _ => .append3 (w.extractLsb' 0 8) (w.extractLsb' 8 8) (w.extractLsb' 16 8)
  | .append4 _ _ _ _ => .append4 (w.extractLsb' 0 8) (w.extractLsb' 8 8) (w.extractLsb' 16 8) (w.extractLsb' 24 8)
  | .digest => .digest
  | .digestb _ => .digestb ((w.extractLsb' 32 2).setWidth 3)
  | .size => .size
  | .blksz => .blksz

theorem rowMask_rowCommand (w : Command) (i : Instr) : rowMask (rowCommand w i) = rowMask i := by cases i <;> rfl

theorem rowMatch_rowCommand (w : Command) (i : Instr) : rowMatch (rowCommand w i) = rowMatch i := by cases i <;> rfl

theorem rowCommand_rowCommand (w : Command) (i : Instr) : rowCommand w (rowCommand w i) = rowCommand w i := by cases i <;> rfl

/-- Lane `j` of `DATA` is eight bits of the word (R63, R13). -/
theorem lane_dataField (w : Command) {j : Nat} (hj : j < 4) : lane j (dataField w) = w.extractLsb' (8 * j) 8 :=
  BitVec.extractLsb'_extractLsb'_of_le (by omega)

/-- An index of 0 to 3 stands in the two low bits of `N` (R62, R70). -/
theorem nField_eq_index {w : Command} (hn : (nField w).toNat ≤ 3) : nField w = (w.extractLsb' 32 2).setWidth 3 := by
  apply BitVec.eq_of_toNat_eq
  simp only [nField, BitVec.extractLsb'_toNat, BitVec.toNat_setWidth] at hn ⊢
  omega

theorem upperLanesZero_four (d : Word) : upperLanesZero 4 d = true :=
  (upperLanesZero_iff 4 d).2 fun _ hlow hhigh => by omega

/-- A selected word decodes to the row's command, operands taken from the fields (R73, R75). -/
theorem decode_of_selects {w : Command} {i : Instr} (h : w &&& rowMask i = rowMatch i) : decode w = some (rowCommand w i) := by
  obtain ⟨ho, hr, hn, hd⟩ := (selects_iff_fields w i).1 h
  have lane0 := lane_dataField w (j := 0) (by decide)
  have lane1 := lane_dataField w (j := 1) (by decide)
  have lane2 := lane_dataField w (j := 2) (by decide)
  have lane3 := lane_dataField w (j := 3) (by decide)
  cases i with
  | init seed => exact (decode_init hr ho).trans (if_pos hn)
  | reset => exact (decode_reset hr ho).trans (if_pos ⟨hn, (upperLanesZero_zero _).1 hd⟩)
  | append0 => rw [decode_append hr ho, hn]; exact if_pos hd
  | append1 b0 => rw [decode_append hr ho, hn, rowCommand, ← lane0]; exact if_pos hd
  | append2 b0 b1 => rw [decode_append hr ho, hn, rowCommand, ← lane0, ← lane1]; exact if_pos hd
  | append3 b0 b1 b2 => rw [decode_append hr ho, hn, rowCommand, ← lane0, ← lane1, ← lane2]; exact if_pos hd
  | append4 b0 b1 b2 b3 => rw [decode_append hr ho, hn, rowCommand, ← lane0, ← lane1, ← lane2, ← lane3]; rfl
  | digest => exact (decode_digest hr ho).trans (if_pos ⟨hn, (upperLanesZero_zero _).1 hd⟩)
  | digestb n => rw [rowCommand, ← nField_eq_index hn]; exact (decode_digestb hr ho).trans (if_pos ⟨hn, (upperLanesZero_zero _).1 hd⟩)
  | size => exact (decode_size hr ho).trans (if_pos ⟨hn, (upperLanesZero_zero _).1 hd⟩)
  | blksz => exact (decode_blksz hr ho).trans (if_pos ⟨hn, (upperLanesZero_zero _).1 hd⟩)

/-- Only a selected word decodes: the rows are all the decoder knows (R75). -/
theorem selects_of_decode {w : Command} {i : Instr} (h : decode w = some i) : ∃ j, w &&& rowMask j = rowMatch j := by
  have hr : rsvField w = 0#21 := by
    by_contra hr
    rw [decode_of_rsv hr] at h
    cases h
  have row (j : Instr) (ho : opcField w = opcode j) (hn : nFits j (nField w))
      (hd : upperLanesZero (operandLanes j) (dataField w) = true) : ∃ j, w &&& rowMask j = rowMatch j :=
    ⟨j, (selects_iff_fields w j).2 ⟨ho, hr, hn, hd⟩⟩
  rcases opcode_cases (opcField w) with ho | ho | ho | ho | ho | ho | ho | ho
  · obtain ⟨hn, -⟩ := Option.ite_none_right_eq_some.1 ((decode_init hr ho).symm.trans h)
    exact row (.init 0) ho hn (upperLanesZero_four _)
  · obtain ⟨⟨hn, hd⟩, -⟩ := Option.ite_none_right_eq_some.1 ((decode_reset hr ho).symm.trans h)
    exact row .reset ho hn ((upperLanesZero_zero _).2 hd)
  · have ha := (decode_append hr ho).symm.trans h
    rcases appendCount_cases (nField w) with hn | hn | hn | hn | hn | hn
    · rw [hn] at ha
      exact row .append0 ho hn (Option.ite_none_right_eq_some.1 ha).1
    · rw [hn] at ha
      exact row (.append1 0) ho hn (Option.ite_none_right_eq_some.1 ha).1
    · rw [hn] at ha
      exact row (.append2 0 0) ho hn (Option.ite_none_right_eq_some.1 ha).1
    · rw [hn] at ha
      exact row (.append3 0 0 0) ho hn (Option.ite_none_right_eq_some.1 ha).1
    · exact row (.append4 0 0 0 0) ho hn (upperLanesZero_four _)
    · rw [decodeAppend_of_count_unused hn] at ha
      cases ha
  · obtain ⟨⟨hn, hd⟩, -⟩ := Option.ite_none_right_eq_some.1 ((decode_digest hr ho).symm.trans h)
    exact row .digest ho hn ((upperLanesZero_zero _).2 hd)
  · obtain ⟨⟨hn, hd⟩, -⟩ := Option.ite_none_right_eq_some.1 ((decode_digestb hr ho).symm.trans h)
    exact row (.digestb 0) ho hn ((upperLanesZero_zero _).2 hd)
  · obtain ⟨⟨hn, hd⟩, -⟩ := Option.ite_none_right_eq_some.1 ((decode_size hr ho).symm.trans h)
    exact row .size ho hn ((upperLanesZero_zero _).2 hd)
  · obtain ⟨⟨hn, hd⟩, -⟩ := Option.ite_none_right_eq_some.1 ((decode_blksz hr ho).symm.trans h)
    exact row .blksz ho hn ((upperLanesZero_zero _).2 hd)
  · rw [decode_of_opcode_unused ho] at h
    cases h

/-- The decoder against the table: a word decodes to a command exactly when the command's row selects it and the command's operands
are the word's fields (R66 to R73, R75). -/
theorem decode_eq_some_iff (w : Command) (i : Instr) :
    decode w = some i ↔ w &&& rowMask i = rowMatch i ∧ rowCommand w i = i := by
  constructor
  · intro h
    obtain ⟨j, hj⟩ := selects_of_decode h
    obtain rfl : rowCommand w j = i := Option.some.inj ((decode_of_selects hj).symm.trans h)
    rw [rowMask_rowCommand, rowMatch_rowCommand, rowCommand_rowCommand]
    exact ⟨hj, rfl⟩
  · rintro ⟨hs, hi⟩
    rw [decode_of_selects hs, hi]

theorem selects_iff_decode (w : Command) (i : Instr) : w &&& rowMask i = rowMatch i ↔ decode w = some (rowCommand w i) := by
  rw [decode_eq_some_iff, rowMask_rowCommand, rowMatch_rowCommand, rowCommand_rowCommand, and_iff_left rfl]

/-- Settles O2: the eleven rows of the table. -/
theorem eachRowDecodesBySelection : Obligations.EachRowDecodesBySelection := fun w =>
  ⟨selects_iff_decode w (.init 0), selects_iff_decode w .reset, selects_iff_decode w .append0, selects_iff_decode w (.append1 0),
    selects_iff_decode w (.append2 0 0), selects_iff_decode w (.append3 0 0 0), selects_iff_decode w (.append4 0 0 0 0),
    selects_iff_decode w .digest, selects_iff_decode w (.digestb 0), selects_iff_decode w .size, selects_iff_decode w .blksz⟩

end Sys2Proof
end

section
/-! PROOF. The one response of every accepted word (30_encoding.md R64, R74): its status, its data and nothing else. -/

namespace Sys2Proof.Machine

/-- The step that accepts the presented word (R151). -/
theorem step_of_accept {s : State} {es : List PortEvent} {w : Command} {ws : List Command} (he : s.edges = .cmdEdge :: es)
    (hc : s.commands = w :: ws) (hready : cmdReady s = true) : step s = acceptCommand w { s with edges := es, commands := ws } := by
  simp only [step, he, portStep, commandEdge, hc]
  exact if_pos hready

/-- Settles O4: the seven conditions against the decoder, and the step that accepts an ill-formed word. -/
theorem illFormedWordsAnswerIllegal : Obligations.IllFormedWordsAnswerIllegal := by
  refine fun w => ⟨decode_eq_none_iff_illFormed w, fun s es ws hill he hc hready => ?_⟩
  rw [step_of_accept he hc hready, acceptCommand_of_ill ((decode_eq_none_iff_illFormed w).2 hill)]

/-- The response data of a command that succeeds, by command and digest (R65). -/
def resultData : Instr → Word → Word
  | .init _, _ => 0#32
  | .reset, _ => 0#32
  | .append0, _ => 0#32
  | .append1 _, _ => 1#32
  | .append2 _ _, _ => 2#32
  | .append3 _ _ _, _ => 3#32
  | .append4 _ _ _ _, _ => 4#32
  | .digest, d => d
  | .digestb n, d => (d >>> (24 - 8 * n.toNat)) &&& 0xFF#32
  | .size, _ => 4#32
  | .blksz, _ => 1#32

/-- A byte of the serialized digest, by shift and mask (R48, R122). -/
theorem zext32_digestByte (k : Nat) (d : Word) : zext32 (digestByte k d) = (d >>> (24 - 8 * k)) &&& 0xFF#32 := by
  have hmask (x : Nat) : x &&& 255 = x % 2 ^ 8 := Nat.and_two_pow_sub_one_eq_mod x 8
  apply BitVec.eq_of_toNat_eq
  rw [zext32, digestByte, show 31 - 8 * k - 7 = 24 - 8 * k by omega]
  simp only [BitVec.toNat_setWidth, BitVec.extractLsb'_toNat, BitVec.toNat_and, BitVec.toNat_ushiftRight]
  exact (Nat.mod_eq_of_lt (by omega)).trans (hmask _).symm

theorem responseOf_digestb_of_le {S : Instance} (hc : S.constructed = true) {n : BitVec 3} (hn : n.toNat ≤ 3) :
    responseOf (.digestb n) S = ⟨.ok, (S.lastDigest >>> (24 - 8 * n.toNat)) &&& 0xFF#32⟩ := by
  have hresp := responseOf_digestb hc (show n.toNat < 4 by omega)
  rwa [BitVec.ofNat_toNat, BitVec.setWidth_eq, zext32_digestByte] at hresp

/-- A well-formed command with the object it needs answers OK and its result (R64, R65). -/
theorem responseOf_ok {i : Instr} (hw : i.wellFormed = true) {S : Instance} (hc : needsObject i = true → S.constructed = true) :
    responseOf i S = ⟨.ok, resultData i S.lastDigest⟩ := by
  cases i with
  | init seed => rfl
  | digestb n => exact responseOf_digestb_of_le (hc rfl) (of_decide_eq_true hw)
  | size => rfl
  | blksz => rfl
  | _ => exact if_pos (hc rfl)

/-- A response is OK with the command's result, or an error with data 0 (R64). -/
theorem responseOf_cases (i : Instr) (S : Instance) :
    responseOf i S = ⟨.ok, resultData i S.lastDigest⟩ ∨ ∃ st, st ≠ .ok ∧ responseOf i S = ⟨st, 0#32⟩ := by
  cases hw : i.wellFormed with
  | false => exact .inr ⟨.illegalEncoding, by decide, responseOf_of_not_wellFormed hw S⟩
  | true =>
    by_cases hc : needsObject i = true → S.constructed = true
    · exact .inl (responseOf_ok hw hc)
    · obtain ⟨hn, hc⟩ := Classical.not_imp.1 hc
      exact .inr ⟨.notConstructed, by decide, responseOf_missing hw hn (Bool.eq_false_iff.2 hc)⟩

theorem statusCode_ne_reserved (st : Status) : statusCode st ≠ 0b11#2 := by
  cases st <;> decide

/-- Settles O17: an ill-formed word answers an error, a command its result or an error. -/
theorem everyWordAnsweredOnce : Obligations.EveryWordAnsweredOnce := by
  refine ⟨⟨rfl, rfl, rfl⟩, fun w s => ?_⟩
  cases hw : decode w with
  | none =>
    exact ⟨_, _, acceptCommand_of_ill hw s, statusCode_ne_reserved _, fun _ => rfl, fun hok => by cases hok⟩
  | some i =>
    refine ⟨_, _, acceptCommand_of_decode hw s, statusCode_ne_reserved _, ?_⟩
    rcases responseOf_cases i s.inst with hr | ⟨st, hst, hr⟩
    · rw [hr]
      exact ⟨fun hne => absurd rfl hne, fun _ => ⟨i, rfl, by cases i <;> rfl⟩⟩
    · rw [hr]
      exact ⟨fun _ => rfl, fun hok => absurd hok hst⟩

end Sys2Proof.Machine
end

section
/-! PROOF. The datapath (40_datapath.md): the two operators with a constant, the rotate, and the stages of the mixer and the finalizer. -/

namespace Sys2Proof.Machine

/-! ### The operators with a constant -/

theorem mul32_eq (x c : Word) : mul32 x c = x * c := BitVec.mul_comm c x

theorem add32_eq (x c : Word) : add32 x c = x + c := BitVec.add_comm c x

/-! ### The rotate -/

/-- Below the width, `ROTL32` is the library's rotate. -/
theorem rotl32_eq_rotateLeft (x : Word) {r : Nat} (hr : r < 32) : rotl32 x r = x.rotateLeft r :=
  (BitVec.rotateLeft_eq_rotateLeftAux_of_lt hr).symm

/-- The bits that leave at the top come back at the bottom (R84). -/
theorem getLsbD_rotl32 (x : Word) {r i : Nat} (hr : r < 32) (hi : i < 32) :
    (rotl32 x r).getLsbD i = x.getLsbD ((i + 32 - r) % 32) := by
  rw [rotl32_eq_rotateLeft x hr, BitVec.getLsbD_rotateLeft_of_le hr]
  by_cases hir : i < r
  · have hwrapped : (i + 32 - r) % 32 = 32 - r + i := by omega
    simp [hir, hwrapped]
  · have hmoved : (i + 32 - r) % 32 = i - r := by omega
    simp [hir, hi, hmoved]

theorem toNat_rotl32 (x : Word) (r : Nat) :
    (rotl32 x r).toNat = ((x.toNat <<< r) ||| (x.toNat >>> (32 - r))) % 2 ^ 32 := by
  have hlow : x.toNat >>> (32 - r) < 2 ^ 32 := (Nat.shiftRight_le _ _).trans_lt x.isLt
  rw [rotl32, BitVec.toNat_or, BitVec.toNat_shiftLeft, BitVec.toNat_ushiftRight, Nat.or_mod_two_pow, Nat.mod_eq_of_lt hlow]

/-- Settles O35: bit by bit and as a number, for every amount below the width. -/
theorem rotateMovesEachBit : Obligations.RotateMovesEachBit :=
  ⟨fun x _ _ _ hr hi => getLsbD_rotl32 x hr hi, fun x r _ _ => toNat_rotl32 x r, rfl, rfl, by decide⟩

/-! ### The stages -/

/-- Stages 1 to 3, in the order of R86. -/
theorem mixK_eq (k : Word) : mixK k = rotl32 (k * c1) r1 * c2 := by
  rw [mixK, mul32_eq, mul32_eq]

/-- Stages 4 to 6: the multiply comes before the add (R87). -/
theorem blockMix_eq (h k : Word) : blockMix h k = rotl32 (h ^^^ mixK k) r2 * mConst + nConst := by
  rw [blockMix, mul32_eq, add32_eq]

/-- The avalanche with the machine's products (R91). -/
theorem fMix_eq (h : Word) : fMix h = xorShift (xorShift (xorShift h 16 * f1) 13 * f2) 16 := by
  rw [fMix, mul32_eq, mul32_eq]

/-- Settles O34: each stage in general, then the worked examples by evaluation. -/
theorem datapathStages : Obligations.DatapathStages := by
  refine ⟨⟨rfl, rfl, rfl, rfl, rfl, rfl, rfl, rfl⟩, mixK_eq, blockMix_eq, fun _ => rfl, tailMix_zero, fMix_eq, fun _ _ _ => rfl,
    ?mixKExample, ?blockMixExample, ?fMixExample, ?finalizeExample⟩
  case mixKExample => decide
  case blockMixExample => decide
  case fMixExample => decide
  case finalizeExample => decide

end Sys2Proof.Machine
end

section
/-! PROOF. The stream view (10_state.md R34, 42_reset_digest_query.md R121): every command moves the instance as it moves the seed and the
stream of bytes, so the cached digest is the one-shot hash of the whole stream. -/

namespace Sys2Proof.Machine

/-! ### The complete blocks of a stream and its tail (R96) -/

/-- The bytes of a stream that complete blocks. -/
def wholeBlocks (bs : List Byte) : List Byte := bs.take (4 * (bs.length / 4))

/-- The bytes of a stream after its last complete block. -/
def tailBytes (bs : List Byte) : List Byte := bs.drop (4 * (bs.length / 4))

theorem wholeBlocks_length (bs : List Byte) : (wholeBlocks bs).length = 4 * (bs.length / 4) := by
  rw [wholeBlocks, List.length_take, Nat.min_eq_left (Nat.mul_div_le _ 4)]

theorem tailBytes_length (bs : List Byte) : (tailBytes bs).length = bs.length % 4 := by
  rw [tailBytes, List.length_drop]; omega

theorem wholeBlocks_append_tailBytes (bs : List Byte) : wholeBlocks bs ++ tailBytes bs = bs := List.take_append_drop _ bs

/-- A byte that completes no block joins the tail. -/
theorem wholeBlocks_snoc_pending {bs : List Byte} (h : bs.length % 4 ≠ 3) (b : Byte) : wholeBlocks (bs ++ [b]) = wholeBlocks bs := by
  have hq : (bs ++ [b]).length / 4 = bs.length / 4 := by rw [List.length_append, List.length_singleton]; omega
  rw [wholeBlocks, hq, List.take_append_of_le_length (Nat.mul_div_le _ 4), wholeBlocks]

theorem tailBytes_snoc_pending {bs : List Byte} (h : bs.length % 4 ≠ 3) (b : Byte) : tailBytes (bs ++ [b]) = tailBytes bs ++ [b] := by
  have hq : (bs ++ [b]).length / 4 = bs.length / 4 := by rw [List.length_append, List.length_singleton]; omega
  rw [tailBytes, hq, List.drop_append_of_le_length (Nat.mul_div_le _ 4), tailBytes]

/-- A fourth byte makes the tail a block. -/
theorem tailBytes_snoc_block {bs : List Byte} (h : bs.length % 4 = 3) (b : Byte) : tailBytes (bs ++ [b]) = [] := by
  rw [← List.length_eq_zero_iff, tailBytes_length, List.length_append, List.length_singleton]; omega

theorem wholeBlocks_snoc_block {bs : List Byte} (h : bs.length % 4 = 3) (b : Byte) :
    wholeBlocks (bs ++ [b]) = wholeBlocks bs ++ (tailBytes bs ++ [b]) := by
  rw [← List.append_assoc, wholeBlocks_append_tailBytes]
  simpa [tailBytes_snoc_block h] using wholeBlocks_append_tailBytes (bs ++ [b])

/-- One block is mixed as the word its bytes pack to (R85, R96). -/
theorem mixAll_of_length_four (h : Word) {xs : List Byte} (hx : xs.length = 4) : mixAll h xs = blockMix h (packLanes xs) := by
  obtain ⟨b0, b1, b2, b3, rfl⟩ := List.length_eq_four.1 hx
  rw [packLanes_four]
  rfl

/-- A fourth byte runs the block mixer once more, on the tail and the byte (R96). -/
theorem mixAll_wholeBlocks_snoc_block {bs : List Byte} (h : bs.length % 4 = 3) (b : Byte) (seed : Word) :
    mixAll seed (wholeBlocks (bs ++ [b])) = blockMix (mixAll seed (wholeBlocks bs)) (packLanes (tailBytes bs ++ [b])) := by
  have hfour : (tailBytes bs ++ [b]).length = 4 := by
    rw [List.length_append, tailBytes_length, h, List.length_singleton]
  rw [wholeBlocks_snoc_block h, mixAll_append _ _ _ _ (wholeBlocks_length bs), mixAll_of_length_four _ hfour]

/-! ### Absorption moves the instance as it moves the stream -/

/-- `S` with the digest and the mode that the end of an `APPEND` writes (R109). -/
def withDigestMode (d : Word) (m : Mode) (S : Instance) : Instance := { S with lastDigest := d, mode := m }

theorem instanceOfStream_eq (seed : Word) (bs : List Byte) :
    instanceOfStream seed bs =
      { constructed := true, seed := seed, runningHash := mixAll seed (wholeBlocks bs), pendingWord := packLanes (tailBytes bs),
        pendingCount := ⟨bs.length % 4, Nat.mod_lt _ (by decide)⟩, totalBytes := BitVec.ofNat 64 bs.length,
        lastDigest := murmur3 seed bs, mode := if bs.isEmpty then .empty else .accumulating } := rfl

/-- `AbsorbByte` against the stream, the digest and the mode left for the end of the `APPEND` (R105). -/
theorem absorbByte_instanceOfStream (b : Byte) (d : Word) (m : Mode) (seed : Word) (bs : List Byte) :
    absorbByte b (withDigestMode d m (instanceOfStream seed bs)) =
      withDigestMode d m (instanceOfStream seed (bs ++ [b])) := by
  have hbytes : BitVec.ofNat 64 (bs ++ [b]).length = BitVec.ofNat 64 bs.length + 1#64 := by
    rw [List.length_append, List.length_singleton, BitVec.ofNat_add]
  have hword : packLanes (tailBytes bs) ||| (zext32 b <<< (8 * (bs.length % 4))) = packLanes (tailBytes bs ++ [b]) := by
    rw [packLanes_snoc, tailBytes_length]
  by_cases h : bs.length % 4 = 3
  · have hcount : (bs ++ [b]).length % 4 = 0 := by rw [List.length_append, List.length_singleton]; omega
    rw [absorbByte_block _ _ (Fin.ext h)]
    simp only [withDigestMode, instanceOfStream_eq, hbytes, hword, hcount, mixAll_wholeBlocks_snoc_block h, tailBytes_snoc_block h,
      packLanes_nil]
    rfl
  · have hcount : (bs ++ [b]).length % 4 = bs.length % 4 + 1 := by rw [List.length_append, List.length_singleton]; omega
    have hfin : (⟨bs.length % 4, Nat.mod_lt _ (by decide)⟩ + 1 : Fin 4) = ⟨(bs ++ [b]).length % 4, Nat.mod_lt _ (by decide)⟩ := by
      refine Fin.ext ?_
      rw [Fin.val_add]
      exact (Nat.mod_eq_of_lt (a := bs.length % 4 + 1) (by omega)).trans hcount.symm
    rw [absorbByte_pending _ _ (fun hc => h (congrArg Fin.val hc))]
    simp only [withDigestMode, instanceOfStream_eq, hbytes, hword, hfin, wholeBlocks_snoc_pending h, tailBytes_snoc_pending h]

theorem absorbBytes_instanceOfStream (cs : List Byte) (d : Word) (m : Mode) (seed : Word) (bs : List Byte) :
    absorbBytes cs (withDigestMode d m (instanceOfStream seed bs)) =
      withDigestMode d m (instanceOfStream seed (bs ++ cs)) := by
  induction cs generalizing bs with
  | nil => rw [absorbBytes_nil, List.append_nil]
  | cons c cs ih => rw [absorbBytes_cons, absorbByte_instanceOfStream, ih, List.append_assoc, List.singleton_append]

/-- The digest and the mode that an `APPEND` writes at its end are the stream's own (R32, R108, R109). -/
theorem updateDigest_instanceOfStream (d : Word) (m : Mode) (seed : Word) {bs : List Byte} (h : bs ≠ []) :
    { updateDigest (withDigestMode d m (instanceOfStream seed bs)) with mode := .accumulating } = instanceOfStream seed bs := by
  have hmode : (if bs.isEmpty then Mode.empty else Mode.accumulating) = .accumulating := if_neg (by simpa using h)
  simp only [updateDigest, withDigestMode, instanceOfStream_eq, hmode]
  rfl

/-- R109 and R111: an `APPEND` moves the instance of a stream to the instance of the longer stream. -/
theorem appendChunk_instanceOfStream (cs : List Byte) (seed : Word) (bs : List Byte) :
    appendChunk cs (instanceOfStream seed bs) = instanceOfStream seed (bs ++ cs) := by
  by_cases hcs : cs = []
  · rw [hcs, appendChunk_nil, List.append_nil]
  · have habsorb : absorbBytes cs (instanceOfStream seed bs) =
        withDigestMode (murmur3 seed bs) (instanceOfStream seed bs).mode (instanceOfStream seed (bs ++ cs)) :=
      absorbBytes_instanceOfStream cs _ _ seed bs
    rw [appendChunk_of_ne_nil hcs, habsorb, updateDigest_instanceOfStream _ _ _ (List.append_ne_nil_of_right_ne_nil _ hcs)]

/-- The empty stream is the fresh object (R40). -/
theorem instanceOfStream_nil (seed : Word) : instanceOfStream seed [] = construct seed := rfl

/-! ### Every command keeps the stream view (R34) -/

theorem ghostStep_of_isAppend {i : Instr} (h : isAppend i = true) (g : Ghost) : ghostStep i g = ghostAppend (appendedBytes i) g := by
  cases i <;> cases h <;> rfl

theorem ghostStep_of_isQuery {i : Instr} (h : isQuery i = true) (g : Ghost) : ghostStep i g = g := by
  cases i <;> cases h <;> rfl

theorem matchesGhost_instAfter (i : Instr) {S : Instance} {g : Ghost} (h : matchesGhost S g) :
    matchesGhost (instAfter i S) (ghostStep i g) := by
  rcases instr_classes i with ⟨seed, rfl⟩ | rfl | ha | hq
  · exact (instanceOfStream_nil seed).symm
  · cases g with
    | none => rw [instAfter_reset_missing h]; exact h
    | some p =>
      obtain rfl : S = instanceOfStream p.1 p.2 := h
      exact (instAfter_reset rfl).trans (instanceOfStream_nil p.1).symm
  · rw [instAfter_of_isAppend ha, ghostStep_of_isAppend ha]
    cases g with
    | none => rw [appendAfter_missing h]; exact h
    | some p =>
      obtain rfl : S = instanceOfStream p.1 p.2 := h
      exact (appendAfter_constructed rfl _).trans (appendChunk_instanceOfStream _ p.1 p.2)
  · rw [instAfter_of_isQuery hq, ghostStep_of_isQuery hq]
    exact h

theorem matchesGhost_instAfterAll (is : List Instr) {S : Instance} {g : Ghost} (h : matchesGhost S g) :
    matchesGhost (instAfterAll is S) (ghostAll is g) := by
  induction is generalizing S g with
  | nil => exact h
  | cons i is ih => exact ih (matchesGhost_instAfter i h)

/-- Settles O43: the run keeps the stream view, and `DIGEST` answers the digest cached in the instance of the stream. -/
theorem digestReflectsWholeStream : Obligations.DigestReflectsWholeStream := by
  intro is s seed bs hc _ hg
  have hinst : instAfterAll is s.inst = instanceOfStream seed bs := by
    have hview := matchesGhost_instAfterAll is (g := none) hc
    rw [hg] at hview
    exact hview
  have hdigest : responseOf .digest (instanceOfStream seed bs) = ⟨.ok, murmur3 seed bs⟩ := rfl
  refine ⟨_, _, execAll_eq is s, exec_eq .digest _, ?result, ?seed⟩
  case result => simp only [hinst, hdigest, instAfter_of_isQuery (i := .digest) rfl]
  case seed => rw [hinst]; rfl

end Sys2Proof.Machine
end

section
/-! PROOF. Errors and instances (60_exceptions.md): the status of every word (R128, R129), what an error leaves (R130), and instances that
share nothing (R138). -/

namespace Sys2Proof.Machine

/-! ### The status of a word (R128, R129) -/

/-- The decoder answers only commands whose operands fit their row: the two index bits of a `DIGESTB` are at most 3 (R70). -/
theorem wellFormed_of_decode {w : Command} {i : Instr} (h : decode w = some i) : i.wellFormed = true := by
  cases i with
  | digestb n =>
    obtain ⟨-, hrow⟩ := (decode_eq_some_iff w _).1 h
    injection hrow with hn
    rw [← hn, Instr.wellFormed, decide_eq_true_iff, BitVec.toNat_setWidth]
    omega
  | _ => rfl

theorem priorityStatus_of_ill {w : Command} (h : decode w = none) (c : Bool) : priorityStatus w c = .illegalEncoding :=
  if_pos ((decode_eq_none_iff_illFormed w).1 h)

theorem priorityStatus_of_decode {w : Command} {i : Instr} (h : decode w = some i) (c : Bool) :
    priorityStatus w c = if needsObject i && !c then .notConstructed else .ok := by
  have hill : ¬ illFormed w = true := fun hill => by
    rw [(decode_eq_none_iff_illFormed w).2 hill] at h
    cases h
  rw [priorityStatus, if_neg hill, h]
  rfl

/-- A well-formed command executes, or lacks its object and leaves no trace but the response (R128, R129). -/
theorem wellFormed_executes_or_missing {i : Instr} (hw : i.wellFormed = true) (S : Instance) :
    ((needsObject i && !S.constructed) = false ∧ (responseOf i S).status = .ok) ∨
      ((needsObject i && !S.constructed) = true ∧ responseOf i S = ⟨.notConstructed, 0#32⟩ ∧ instAfter i S = S) := by
  cases hm : needsObject i && !S.constructed with
  | false =>
    have hc : needsObject i = true → S.constructed = true := by simpa using hm
    exact .inl ⟨rfl, by rw [responseOf_ok hw hc]⟩
  | true =>
    obtain ⟨hn, hc⟩ : needsObject i = true ∧ S.constructed = false := by simpa using hm
    exact .inr ⟨rfl, responseOf_missing hw hn hc, instAfter_missing hn hc⟩

/-- Settles O18: a word the decoder rejects, a command that executes, and a command without its object. -/
theorem statusByPriority : Obligations.StatusByPriority := by
  intro w s
  cases hd : decode w with
  | none => exact ⟨_, _, acceptCommand_of_ill hd s, (priorityStatus_of_ill hd _).symm, fun _ => ⟨rfl, rfl⟩⟩
  | some i =>
    refine ⟨_, _, acceptCommand_of_decode hd s, ?_⟩
    rw [priorityStatus_of_decode hd]
    rcases wellFormed_executes_or_missing (wellFormed_of_decode hd) s.inst with ⟨hm, hok⟩ | ⟨hm, hr, hS⟩
    · rw [hm, hok]
      exact ⟨rfl, fun hne => absurd rfl hne⟩
    · rw [hm, hr]
      exact ⟨rfl, fun _ => ⟨hS, rfl⟩⟩

/-! ### What an error leaves (R130) -/

/-- What an accepted word does to the instance and answers depends on the instance alone (R36). -/
theorem acceptCommand_of_same_inst (w : Command) {s t : State} (h : t.inst = s.inst) :
    ∃ S r, acceptCommand w s = .next (answered s S r) ∧ acceptCommand w t = .next (answered t S r) := by
  cases hd : decode w with
  | none => exact ⟨_, _, acceptCommand_of_ill hd s, by rw [acceptCommand_of_ill hd, h]⟩
  | some i => exact ⟨_, _, acceptCommand_of_decode hd s, by rw [acceptCommand_of_decode hd, h]⟩

/-- Settles O19: the error leaves the instance, and the next word reads nothing else. -/
theorem errorsChangeNothing : Obligations.ErrorsChangeNothing := by
  intro w s t r ht hr herr
  obtain ⟨S, r', hacc, -, hnone⟩ := statusByPriority w s
  obtain rfl : answered s S r' = t := Host.Outcome.next.inj (hacc.symm.trans ht)
  obtain rfl : r' = r := by simpa using hr
  obtain rfl : S = s.inst := (hnone herr).1
  exact ⟨rfl, fun w' => acceptCommand_of_same_inst w' rfl⟩

/-! ### Instances that share nothing (R138) -/

/-- One port event answers a next state (R150). -/
theorem portStep_answers (e : PortEvent) (s : State) : ∃ t, portStep e s = .next t := by
  cases e with
  | cmdEdge =>
    rw [portStep, commandEdge]
    split
    · exact ⟨_, rfl⟩
    · next w ws _ =>
      split
      · obtain ⟨S, r, h⟩ := acceptCommand_answers w { s with commands := ws }
        exact ⟨_, h⟩
      · exact ⟨_, rfl⟩
  | respEdge => rw [portStep, responseEdge]; split <;> exact ⟨_, rfl⟩
  | resetEdge => exact ⟨_, rfl⟩

/-- Every step answers a next state: the block has no trap and no fault (R130, R136). -/
theorem step_answers (s : State) : ∃ t, step s = .next t := by
  rw [step]
  split
  · exact ⟨_, rfl⟩
  · exact portStep_answers _ _

theorem runSteps_succ_of_step {s t : State} (h : step s = .next t) (n : Nat) : runSteps (n + 1) s = runSteps n t := by
  rw [runSteps, h]

theorem platformRun_cons_of_step {k : Nat} {p q : List State} (h : platformStep k p = .next q) (ks : List Nat) :
    platformRun (k :: ks) p = platformRun ks q := by
  rw [platformRun, h]

/-- A step of instance `k` steps that instance as alone, and leaves every other as it is (R138). -/
theorem platformStep_frame (k : Nat) (p : List State) :
    ∃ q, platformStep k p = .next q ∧ q.length = p.length ∧ (∀ j, k ≠ j → q[j]? = p[j]?) ∧
      ∀ s, p[k]? = some s → ∃ t, step s = .next t ∧ q[k]? = some t := by
  cases hk : p[k]? with
  | none => exact ⟨p, by rw [platformStep, hk], rfl, fun _ _ => rfl, fun s hs => by cases hs⟩
  | some s =>
    obtain ⟨t, ht⟩ := step_answers s
    obtain ⟨hlt, -⟩ := List.getElem?_eq_some_iff.1 hk
    refine ⟨p.set k t, by simp only [platformStep, hk, ht], List.length_set, fun j hj => List.getElem?_set_ne hj, ?_⟩
    rintro _ ⟨⟩
    exact ⟨t, ht, List.getElem?_set_self hlt⟩

/-- Settles O52, by induction on the schedule: its first step is one of the instance's own or leaves the instance as it is. -/
theorem instancesShareNothing : Obligations.InstancesShareNothing := by
  intro ks
  induction ks with
  | nil => exact fun p => ⟨p, rfl, rfl, fun j s hs => ⟨s, rfl, hs⟩⟩
  | cons k ks ih =>
    intro p
    obtain ⟨p', hstep, hlen, hother, hown⟩ := platformStep_frame k p
    obtain ⟨q, hrun, hlen', hq⟩ := ih p'
    refine ⟨q, by rw [platformRun_cons_of_step hstep, hrun], hlen'.trans hlen, fun j s hs => ?_⟩
    by_cases hkj : k = j
    · subst hkj
      obtain ⟨t, ht, hp'⟩ := hown s hs
      rw [List.count_cons_self, runSteps_succ_of_step ht]
      exact hq k t hp'
    · rw [List.count_cons_of_ne hkj]
      exact hq j s ((hother j hkj).trans hs)

end Sys2Proof.Machine
end

section
/-! PROOF. Decoding and encoding (30_encoding.md R44, R73, R75, R78): the lanes of `DATA` against the byte list of a command, the fields of a
command's word, and the rows of the table against each other. -/

namespace Sys2Proof

open Sys2Proof.Machine

/-! ### The lanes of a word (R44, R63) -/

/-- The first `n` lanes of a word, lane 0 first (R13, R44). -/
def lanes (n : Nat) (d : Word) : List Byte := (List.range n).map (fun j => lane j d)

theorem lanes_packLanes {bs : List Byte} (hlen : bs.length ≤ 4) : lanes bs.length (packLanes bs) = bs := by
  match bs, hlen with
  | [], _ => rfl
  | [b0], _ => simp [lanes, List.range_succ, lane_pack1]
  | [b0, b1], _ => simp [lanes, List.range_succ, lane_pack2]
  | [b0, b1, b2], _ => simp [lanes, List.range_succ, lane_pack3]
  | [b0, b1, b2, b3], _ => simp [lanes, List.range_succ, lane_pack4]

theorem upperLanesZero_packLanes {bs : List Byte} (hlen : bs.length ≤ 4) : upperLanesZero bs.length (packLanes bs) = true := by
  match bs, hlen with
  | [], _ => rfl
  | [b0], _ => exact upperLanesZero_pack1 b0
  | [b0, b1], _ => exact upperLanesZero_pack2 b0 b1
  | [b0, b1, b2], _ => exact upperLanesZero_pack3 b0 b1 b2
  | [b0, b1, b2, b3], _ => exact upperLanesZero_four _

theorem packLanes_lanes {n : Nat} (hn : n ≤ 4) {d : Word} (h : upperLanesZero n d = true) : packLanes (lanes n d) = d := by
  match n, hn with
  | 0, _ => exact ((upperLanesZero_zero d).1 h).symm
  | 1, _ => exact packLanes_lanes1 d h
  | 2, _ => exact packLanes_lanes2 d h
  | 3, _ => exact packLanes_lanes3 d h
  | 4, _ => exact packLanes_lanes4 d

/-- Up to four bytes pack into a word exactly when they are its first lanes and the lanes above are zero (R44, R63). -/
theorem packLanes_eq_iff {bs : List Byte} (hlen : bs.length ≤ 4) (d : Word) :
    packLanes bs = d ↔ upperLanesZero bs.length d = true ∧ lanes bs.length d = bs := by
  constructor
  · rintro rfl
    exact ⟨upperLanesZero_packLanes hlen, lanes_packLanes hlen⟩
  · rintro ⟨hz, hb⟩
    rw [← packLanes_lanes hlen hz, hb]

/-! ### The fields of a command's word (R66 to R72) -/

/-- The field `N` of a command: the index of a `DIGESTB`, else the byte count (R62). -/
def operandN : Instr → BitVec 3
  | .digestb n => n
  | i => BitVec.ofNat 3 (appendedBytes i).length

/-- The field `DATA` of a command: the seed of an `INIT`, else the packed bytes (R63). -/
def operandData : Instr → Word
  | .init seed => seed
  | i => packLanes (appendedBytes i)

theorem encode_eq (i : Instr) : encode i = commandWord (opcode i) (operandN i) (operandData i) := by
  cases i <;> rfl

theorem encode_eq_iff_fields (i : Instr) (w : Command) :
    encode i = w ↔ opcField w = opcode i ∧ rsvField w = 0#21 ∧ nField w = operandN i ∧ dataField w = operandData i := by
  rw [eq_comm, encode_eq, command_eq_iff_fields, opcField_commandWord, rsvField_commandWord, nField_commandWord, dataField_commandWord]

theorem appendedBytes_length_le (i : Instr) : (appendedBytes i).length ≤ 4 := by
  cases i <;> simp [appendedBytes]

section Appends
variable {i : Instr} (h : isAppend i = true)
include h

theorem operandLanes_of_isAppend : operandLanes i = (appendedBytes i).length := by
  cases i <;> cases h <;> rfl

theorem operandN_of_isAppend : operandN i = BitVec.ofNat 3 (appendedBytes i).length := by
  cases i <;> cases h <;> rfl

theorem operandData_of_isAppend : operandData i = packLanes (appendedBytes i) := by
  cases i <;> cases h <;> rfl

theorem nFits_iff_of_isAppend (n : BitVec 3) : nFits i n ↔ n = operandN i := by
  cases i <;> cases h <;> rfl

theorem wellFormed_of_isAppend : i.wellFormed = true := by
  cases i <;> cases h <;> rfl

/-- An `APPEND` is the command its row reads from a word exactly when its bytes are the word's first lanes (R73). -/
theorem rowCommand_eq_iff_of_isAppend (w : Command) :
    rowCommand w i = i ↔ lanes (appendedBytes i).length (dataField w) = appendedBytes i := by
  have lane0 := lane_dataField w (j := 0) (by decide)
  have lane1 := lane_dataField w (j := 1) (by decide)
  have lane2 := lane_dataField w (j := 2) (by decide)
  have lane3 := lane_dataField w (j := 3) (by decide)
  cases i <;> cases h <;> simp [rowCommand, appendedBytes, lanes, List.range_succ, lane0, lane1, lane2, lane3]

end Appends

/-! ### Decoding against encoding (R78) -/

theorem row_operands_iff_digestb (n : BitVec 3) (w : Command) :
    nFits (.digestb n) (nField w) ∧ rowCommand w (.digestb n) = .digestb n ↔ (Instr.digestb n).wellFormed = true ∧ nField w = n := by
  rw [nFits, rowCommand, Instr.wellFormed, decide_eq_true_iff, Instr.digestb.injEq]
  constructor
  · rintro ⟨hle, hn⟩
    have heq := (nField_eq_index hle).trans hn
    exact ⟨heq ▸ hle, heq⟩
  · rintro ⟨hle, rfl⟩
    exact ⟨hle, (nField_eq_index hle).symm⟩

/-- What a row and the row's operands ask of `N` and `DATA` is what the encoder writes there (R66 to R73). -/
theorem row_operands_iff (i : Instr) (w : Command) :
    nFits i (nField w) ∧ upperLanesZero (operandLanes i) (dataField w) = true ∧ rowCommand w i = i ↔
      i.wellFormed = true ∧ nField w = operandN i ∧ dataField w = operandData i := by
  cases ha : isAppend i with
  | true =>
    rw [nFits_iff_of_isAppend ha, operandLanes_of_isAppend ha, rowCommand_eq_iff_of_isAppend ha, wellFormed_of_isAppend ha,
      operandData_of_isAppend ha, eq_comm (a := dataField w), packLanes_eq_iff (appendedBytes_length_le i)]
    exact (and_iff_right rfl).symm
  | false =>
    cases i with
    | init seed =>
      simp [nFits, operandLanes, upperLanesZero_four, rowCommand, Instr.wellFormed, operandN, operandData, appendedBytes, dataField]
    | digestb n =>
      rw [and_left_comm, row_operands_iff_digestb, operandLanes, upperLanesZero_zero]
      exact and_rotate
    | append0 | append1 | append2 | append3 | append4 => cases ha
    | reset | digest | size | blksz =>
      simp [nFits, operandLanes, upperLanesZero_zero, rowCommand, Instr.wellFormed, operandN, operandData, appendedBytes, packLanes_nil]

/-- Settles O3: a row that selects the word, with the row's operands, against the fields of the encoding. -/
theorem decodeAndEncodeAgree : Obligations.DecodeAndEncodeAgree := by
  intro w i
  rw [decode_eq_some_iff, selects_iff_fields, encode_eq_iff_fields]
  have hop := row_operands_iff i w
  tauto

theorem decode_encode {i : Instr} (h : i.wellFormed = true) : decode (encode i) = some i :=
  (decodeAndEncodeAgree _ _).2 ⟨h, rfl⟩

theorem encode_of_decode {w : Command} {i : Instr} (h : decode w = some i) : encode i = w :=
  ((decodeAndEncodeAgree w i).1 h).2

/-! ### The rows of the table (R75) -/

/-- Settles O5: the rows are all the decoder knows, and the rows that select a word read the same command. -/
theorem noWordHasTwoRows : Obligations.NoWordHasTwoRows := by
  refine fun w => ⟨⟨fun hnone i hi => ?_, fun hall => ?_⟩, fun i j hi hj => ?_⟩
  · rw [decode_of_selects hi] at hnone
    cases hnone
  · by_contra hsome
    obtain ⟨i, hi⟩ := Option.ne_none_iff_exists'.1 hsome
    obtain ⟨j, hj⟩ := selects_of_decode hi
    exact hall j hj
  · have hsame : rowCommand w i = rowCommand w j := Option.some.inj ((decode_of_selects hi).symm.trans (decode_of_selects hj))
    rw [← rowMatch_rowCommand w i, ← rowMask_rowCommand w i, hsame, rowMatch_rowCommand, rowMask_rowCommand]
    exact ⟨rfl, rfl⟩

/-! ### The byte list of an `APPEND` (R44, R73) -/

/-- Settles O6: the bytes of an `APPEND` are the lanes of the word they pack into. -/
theorem appendLanesInOrder : Obligations.AppendLanesInOrder := by
  refine ⟨fun w i hd ha => ?_, fun i j ha hj => ?_⟩
  · obtain ⟨-, -, hn, hdata⟩ := (encode_eq_iff_fields i w).1 (encode_of_decode hd)
    have hlen := appendedBytes_length_le i
    have hcount : (nField w).toNat = (appendedBytes i).length := by
      rw [hn, operandN_of_isAppend ha, BitVec.toNat_ofNat, Nat.mod_eq_of_lt (by omega)]
    rw [operandData_of_isAppend ha] at hdata
    rw [hcount, hdata]
    exact (lanes_packLanes hlen).symm
  · have hlanes := lanes_packLanes (appendedBytes_length_le i)
    rw [encode_eq, nField_commandWord, dataField_commandWord, operandN_of_isAppend ha, operandData_of_isAppend ha]
    refine ⟨rfl, ?_⟩
    conv_lhs => rw [← hlanes]
    simp [lanes, lane, hj]

/-- Settles O1, by evaluation of the decoder on the words of the spec's table. -/
theorem specWordsDecode : Obligations.SpecWordsDecode := by
  unfold Obligations.SpecWordsDecode
  decide

end Sys2Proof
end

section
/-! PROOF. The ports (70_reset_and_hazards.md R141 to R153): when the block is ready, what each kind of edge does, and what a step can do to
the channels. -/

namespace Sys2Proof.Machine

/-! ### When the block is ready (R142, R152) -/

theorem maxOutstanding_pos {k : Nat} (h : Config.maxOutstanding = some k) : 0 < k := by
  obtain ⟨m, -, rfl⟩ := Option.map_eq_some_iff.1 h
  exact Nat.succ_pos m

theorem cmdReady_iff (s : State) : cmdReady s = true ↔ ∀ k, Config.maxOutstanding = some k → s.outstanding.length < k := by
  unfold cmdReady
  cases ho : s.outstanding with
  | nil => exact iff_of_true rfl fun k hk => maxOutstanding_pos hk
  | cons r rs => cases hm : Config.maxOutstanding <;> simp

/-! ### The step at each kind of edge -/

section Edges
variable {s : State} {es : List PortEvent}

theorem step_of_no_edge (he : s.edges = []) : step s = .next s := by
  rw [step, he]

theorem step_of_no_command (he : s.edges = .cmdEdge :: es) (hc : s.commands = []) : step s = .next { s with edges := es } := by
  simp only [step, he, portStep, commandEdge, hc]

theorem step_of_command {w : Command} {ws : List Command} (he : s.edges = .cmdEdge :: es) (hc : s.commands = w :: ws) :
    step s = if cmdReady s then acceptCommand w { s with edges := es, commands := ws } else .next { s with edges := es } := by
  simp only [step, he, portStep, commandEdge, hc]
  rfl

theorem step_of_no_response (he : s.edges = .respEdge :: es) (ho : s.outstanding = []) : step s = .next { s with edges := es } := by
  simp only [step, he, portStep, responseEdge, ho]

theorem step_of_response {r : Response} {rs : List Response} (he : s.edges = .respEdge :: es) (ho : s.outstanding = r :: rs) :
    step s = .next { s with edges := es, outstanding := rs, taken := s.taken ++ [r] } := by
  simp only [step, he, portStep, responseEdge, ho]

theorem step_of_reset (he : s.edges = .resetEdge :: es) :
    step s = .next { s with edges := es, inst := powerOnInstance s.draws, outstanding := [], draws := s.draws + 1 } := by
  simp only [step, he, portStep, powerOnReset]

end Edges

/-- Settles O8: the step that accepts a word, and the meaning of the word it decodes to. -/
theorem stepRunsDecodedCommand : Obligations.StepRunsDecodedCommand := by
  intro s es w ws i he hc hready hd
  rw [step_of_accept he hc hready, acceptCommand_of_decode hd, exec_eq]

/-- Settles O9: the count of untaken responses against the limit, and both branches of a command edge. -/
theorem fullBlockHoldsCommand : Obligations.FullBlockHoldsCommand :=
  ⟨cmdReady_iff, fun _ _ _ _ he hc => step_of_command he hc⟩

/-- Settles O11: the response channel with a response and without one. -/
theorem responseEdgeTakesOldest : Obligations.ResponseEdgeTakesOldest := by
  refine fun s es he => ⟨fun r rs ho => ⟨?_, step_of_response he ho⟩, fun ho => ⟨?_, step_of_no_response he ho⟩⟩
  · rw [respPort, ho, List.head?_cons]
  · rw [respPort, ho, List.head?_nil]

/-- Settles O12: the state that the step of a reset edge answers. -/
theorem powerOnResetClearsObject : Obligations.PowerOnResetClearsObject :=
  fun _ _ he => ⟨_, step_of_reset he, rfl, rfl, rfl, rfl, rfl, rfl, rfl⟩

/-- Settles O13: no edge to come, and a command edge with nothing presented. -/
theorem idleKeepsState : Obligations.IdleKeepsState :=
  ⟨fun _ he => step_of_no_edge he, fun _ _ he hc => step_of_no_command he hc⟩

/-- Settles O14, by the fields of the state after reset. -/
theorem resetStateHasNoObject : Obligations.ResetStateHasNoObject := ⟨rfl, rfl, rfl, rfl, rfl, rfl⟩

/-- Settles O16: the port events one by one. -/
theorem everyStepAnswersNext : Obligations.EveryStepAnswersNext := step_answers

/-! ### What a step can do to the channels (R152, R153) -/

/-- Settles O10: which steps leave the untaken responses as they are, and the step that takes one. -/
theorem holdEndsWithTakenResponse : Obligations.HoldEndsWithTakenResponse := by
  refine ⟨fun s t h hresp hreset hready => ?_, fun s es r rs hwithin he ho => ⟨_, step_of_response he ho, ?_, rfl, rfl⟩⟩
  · rcases step_cases h with ⟨-, rfl⟩ | ⟨es, -, -, rfl⟩ | ⟨es, w, ws, -, -, hs, -⟩ | ⟨es, he, -⟩ | ⟨es, r, rs, he, -⟩ | ⟨es, he, -⟩
    · exact hready
    · exact hready
    · exact hs
    · exact absurd (congrArg List.head? he) hresp
    · exact absurd (congrArg List.head? he) hresp
    · exact absurd (congrArg List.head? he) hreset
  · refine (cmdReady_iff _).2 fun k hk => ?_
    have hle := hwithin k hk
    rw [ho, List.length_cons] at hle
    exact hle

/-- Settles O15: an accepted word answers once, a taken response stays in the observation, power-on reset drops the untaken ones. -/
theorem oneResponseEachInOrder : Obligations.OneResponseEachInOrder := by
  intro s t h
  rcases step_cases h with ⟨-, rfl⟩ | ⟨es, -, -, rfl⟩ | ⟨es, w, ws, -, hc, -, ha⟩ | ⟨es, -, -, rfl⟩ | ⟨es, r, rs, -, ho, rfl⟩ |
    ⟨es, he, rfl⟩
  · exact .inl ⟨rfl, rfl⟩
  · exact .inl ⟨rfl, rfl⟩
  · obtain ⟨S, r, hr⟩ := acceptCommand_answers w { s with edges := es, commands := ws }
    obtain rfl := Host.Outcome.next.inj (hr.symm.trans ha)
    exact .inr (.inl ⟨w, ws, r, hc, rfl, rfl, rfl⟩)
  · exact .inl ⟨rfl, rfl⟩
  · refine .inl ⟨rfl, ?_⟩
    simp only [observation, ho, List.append_assoc, List.singleton_append]
  · exact .inr (.inr ⟨congrArg List.head? he, rfl, rfl, rfl⟩)

end Sys2Proof.Machine
end

section
/-! PROOF. The invariant of the instance and of the ports (10_state.md R27, R31 to R33, 30_encoding.md R64, 70_reset_and_hazards.md R152): it
holds after power-on reset, and every step keeps it. -/

namespace Sys2Proof.Machine

/-! ### The instance -/

theorem instanceInv_of_missing {S : Instance} (h : S.constructed = false) : instanceInv S := by
  intro hc
  rw [h] at hc
  cases hc

theorem instanceInv_construct (seed : Word) : instanceInv (construct seed) :=
  fun _ => ⟨rfl, rfl, rfl, fun _ => rfl⟩

theorem countMatches_absorbBytes (bs : List Byte) {S : Instance} (h : countMatches S) : countMatches (absorbBytes bs S) := by
  induction bs generalizing S with
  | nil => exact h
  | cons b bs ih => exact ih (countMatches_absorbByte b S h)

theorem cleanTail_absorbBytes (bs : List Byte) {S : Instance} (h : cleanTail S) : cleanTail (absorbBytes bs S) := by
  induction bs generalizing S with
  | nil => exact h
  | cons b bs ih => exact ih (cleanTail_absorbByte b S h)

/-- An `APPEND` keeps the invariant: absorption keeps the count and the clean tail, and its end writes digest and mode (R109). -/
theorem instanceInv_appendChunk (bs : List Byte) {S : Instance} (hc : S.constructed = true) (h : instanceInv S) :
    instanceInv (appendChunk bs S) := by
  by_cases hbs : bs = []
  · rw [hbs, appendChunk_nil]
    exact h
  · obtain ⟨hcount, -, hclean, -⟩ := h hc
    rw [appendChunk_of_ne_nil hbs]
    refine fun _ => ⟨?_, ?_, ?_, fun hm => by cases hm⟩
    · exact countMatches_absorbBytes bs hcount
    · exact updateDigest_lastDigest _
    · exact cleanTail_absorbBytes bs hclean

theorem instanceInv_instAfter (i : Instr) {S : Instance} (h : instanceInv S) : instanceInv (instAfter i S) := by
  rcases instr_classes i with ⟨seed, rfl⟩ | rfl | ha | hq
  · exact instanceInv_construct seed
  · cases hc : S.constructed with
    | false => rw [instAfter_reset_missing hc]; exact h
    | true => rw [instAfter_reset hc]; exact instanceInv_construct S.seed
  · rw [instAfter_of_isAppend ha]
    cases hc : S.constructed with
    | false => rw [appendAfter_missing hc]; exact h
    | true => rw [appendAfter_constructed hc]; exact instanceInv_appendChunk _ hc h
  · rw [instAfter_of_isQuery hq]
    exact h

/-! ### The whole machine -/

/-- An accepted word keeps the invariant of the instance and answers data 0 with every error (R64). -/
theorem acceptCommand_instanceInv (w : Command) {s : State} (h : instanceInv s.inst) :
    ∃ S r, acceptCommand w s = .next (answered s S r) ∧ instanceInv S ∧ (r.status ≠ .ok → r.data = 0#32) := by
  cases hd : decode w with
  | none => exact ⟨_, _, acceptCommand_of_ill hd s, h, fun _ => rfl⟩
  | some i =>
    refine ⟨_, _, acceptCommand_of_decode hd s, instanceInv_instAfter i h, ?_⟩
    rcases responseOf_cases i s.inst with hr | ⟨st, -, hr⟩
    · rw [hr]; exact fun hne => absurd rfl hne
    · rw [hr]; exact fun _ => rfl

/-- Settles O33: no object and no response. -/
theorem resetStateMeetsInvariant : Obligations.ResetStateMeetsInvariant :=
  ⟨instanceInv_of_missing rfl, fun k _ => Nat.zero_le k, fun _ hr => nomatch hr⟩

/-- Settles O32: the instance by command, the limit by readiness at acceptance, the responses by their order. -/
theorem stepKeepsInvariant : Obligations.StepKeepsInvariant := by
  rintro s t ⟨hinst, hwithin, hzero⟩ h
  rcases step_cases h with ⟨-, rfl⟩ | ⟨es, -, -, rfl⟩ | ⟨es, w, ws, -, -, hready, ha⟩ | ⟨es, -, -, rfl⟩ | ⟨es, r, rs, -, ho, rfl⟩ |
    ⟨es, -, rfl⟩
  · exact ⟨hinst, hwithin, hzero⟩
  · exact ⟨hinst, hwithin, hzero⟩
  · obtain ⟨S, r, hr, hS, hdata⟩ := acceptCommand_instanceInv w (s := { s with edges := es, commands := ws }) hinst
    obtain rfl := Host.Outcome.next.inj (hr.symm.trans ha)
    refine ⟨hS, fun k hk => ?_, ?_⟩
    · rw [answered_outstanding, List.length_append]
      exact (cmdReady_iff s).1 hready k hk
    · intro x hx
      simp only [observation, answered_outstanding, answered_taken, ← List.append_assoc, List.mem_append, List.mem_singleton] at hx
      rcases hx with hx | rfl
      · exact hzero x (List.mem_append.2 hx)
      · exact hdata
  · exact ⟨hinst, hwithin, hzero⟩
  · refine ⟨hinst, fun k hk => ?_, ?_⟩
    · have hle := hwithin k hk
      rw [ho, List.length_cons] at hle
      exact Nat.le_of_succ_le hle
    · intro x hx
      refine hzero x ?_
      simpa only [observation, ho, List.append_assoc, List.singleton_append] using hx
  · refine ⟨instanceInv_of_missing rfl, fun k _ => Nat.zero_le k, fun x hx => hzero x ?_⟩
    rw [observation, List.append_nil] at hx
    exact List.mem_append_left _ hx

end Sys2Proof.Machine
end

section
/-! PROOF. The results of `RESET`, `APPEND` and the digest queries (41_construct_append.md R109, 42_reset_digest_query.md R116 to R122): an
`APPEND` in closed form, the digest bytes, and a `RESET` of a `RESET`. -/

namespace Sys2Proof.Machine

/-! ### Absorption below a block boundary and across it (R105, R109) -/

/-- Bytes packed behind `bs`, both shifted above the `k` pending bytes. -/
theorem packLanes_snoc_shift (bs : List Byte) (b : Byte) (k : Nat) :
    packLanes (bs ++ [b]) <<< (8 * k) = packLanes bs <<< (8 * k) ||| zext32 b <<< (8 * (k + bs.length)) := by
  rw [packLanes_snoc, BitVec.shiftLeft_or_distrib, ← BitVec.shiftLeft_add, ← Nat.mul_add, Nat.add_comm bs.length k]

/-- Bytes that complete no block join the pending word and nothing is mixed (R105). -/
theorem absorbBytes_of_lt_four (bs : List Byte) {S : Instance} (hlt : S.pendingCount.val + bs.length < 4) :
    (absorbBytes bs S).runningHash = S.runningHash ∧ (absorbBytes bs S).pendingCount.val = S.pendingCount.val + bs.length ∧
      (absorbBytes bs S).pendingWord = S.pendingWord ||| packLanes bs <<< (8 * S.pendingCount.val) := by
  induction bs using List.reverseRecOn with
  | nil => simp [packLanes_nil]
  | append_singleton bs b ih =>
    rw [List.length_append, List.length_singleton] at hlt
    obtain ⟨hhash, hcount, hword⟩ := ih (by omega)
    have hne : (absorbBytes bs S).pendingCount ≠ 3 := fun h => by rw [h] at hcount; change 3 = _ at hcount; omega
    rw [absorbBytes_append, absorbBytes_cons, absorbBytes_nil]
    refine ⟨?_, ?_, ?_⟩
    · rw [absorbByte_pending _ _ hne, hhash]
    · rw [absorbByte_pendingCount, hcount, List.length_append, List.length_singleton, Nat.mod_eq_of_lt (by omega), Nat.add_assoc]
    · rw [absorbByte_pending _ _ hne, packLanes_snoc_shift, ← BitVec.or_assoc, ← hword, ← hcount]

/-- The byte that completes a block runs the block mixer on the pending word with the bytes that fill it (R105). -/
theorem absorbBytes_of_eq_four {bs : List Byte} {S : Instance} (heq : S.pendingCount.val + bs.length = 4) :
    (absorbBytes bs S).runningHash = blockMix S.runningHash (S.pendingWord ||| packLanes bs <<< (8 * S.pendingCount.val)) ∧
      (absorbBytes bs S).pendingCount = 0 ∧ (absorbBytes bs S).pendingWord = 0#32 := by
  rcases List.eq_nil_or_concat' bs with rfl | ⟨front, b, rfl⟩
  · have hlt := S.pendingCount.isLt
    rw [List.length_nil] at heq
    omega
  · rw [List.length_append, List.length_singleton] at heq
    obtain ⟨hhash, hcount, hword⟩ := absorbBytes_of_lt_four front (S := S) (by omega)
    have hthree : (absorbBytes front S).pendingCount = 3 := Fin.ext (by rw [hcount]; change _ = 3; omega)
    rw [absorbBytes_append, absorbBytes_cons, absorbBytes_nil, absorbByte_block _ _ hthree]
    refine ⟨?_, rfl, rfl⟩
    rw [packLanes_snoc_shift, ← BitVec.or_assoc, ← hword, ← hcount, hhash]

/-- Bytes that cross one block boundary run the block mixer once, and the bytes behind the boundary are pending (R109, R113). -/
theorem absorbBytes_of_four_le {bs : List Byte} {S : Instance} (hle : 4 ≤ S.pendingCount.val + bs.length)
    (hlt : S.pendingCount.val + bs.length < 8) :
    (absorbBytes bs S).runningHash = blockMix S.runningHash
        (S.pendingWord ||| packLanes (bs.take (4 - S.pendingCount.val)) <<< (8 * S.pendingCount.val)) ∧
      (absorbBytes bs S).pendingCount.val = S.pendingCount.val + bs.length - 4 ∧
      (absorbBytes bs S).pendingWord = packLanes (bs.drop (4 - S.pendingCount.val)) := by
  have hpending := S.pendingCount.isLt
  generalize hfill : bs.take (4 - S.pendingCount.val) = fill
  generalize hrest : bs.drop (4 - S.pendingCount.val) = rest
  have hsplit : bs = fill ++ rest := by rw [← hfill, ← hrest, List.take_append_drop]
  have hfillLen : S.pendingCount.val + fill.length = 4 := by rw [← hfill, List.length_take]; omega
  have hrestLen : rest.length = S.pendingCount.val + bs.length - 4 := by rw [← hrest, List.length_drop]; omega
  obtain ⟨hhash, hcount, hword⟩ := absorbBytes_of_eq_four hfillLen
  have hzero : (absorbBytes fill S).pendingCount.val = 0 := congrArg Fin.val hcount
  obtain ⟨hhash', hcount', hword'⟩ := absorbBytes_of_lt_four rest (S := absorbBytes fill S) (by omega)
  rw [← hrestLen, hsplit, absorbBytes_append]
  refine ⟨hhash'.trans hhash, ?_, ?_⟩
  · rw [hcount', hzero, Nat.zero_add]
  · rw [hword', hword, hzero, Nat.mul_zero, BitVec.shiftLeft_zero, BitVec.zero_or]

/-! ### The chunk of one `APPEND` (R109) -/

theorem exec_append {i : Instr} (ha : isAppend i = true) {s : State} (hc : s.inst.constructed = true) :
    exec i s =
      .next (answered s (appendChunk (appendedBytes i) s.inst) ⟨.ok, BitVec.ofNat 32 (appendedBytes i).length⟩) := by
  rw [exec_eq, instAfter_append ha hc, responseOf_of_isAppend ha, appendResponse, if_pos hc]

/-- The accumulator and the pending bytes are as absorption leaves them (R109). -/
theorem appendChunk_pending (bs : List Byte) (S : Instance) :
    (appendChunk bs S).runningHash = (absorbBytes bs S).runningHash ∧
      (appendChunk bs S).pendingCount = (absorbBytes bs S).pendingCount ∧
      (appendChunk bs S).pendingWord = (absorbBytes bs S).pendingWord ∧
      (appendChunk bs S).totalBytes = (absorbBytes bs S).totalBytes := by
  by_cases hbs : bs = []
  · rw [hbs, appendChunk_nil, absorbBytes_nil]
    exact ⟨rfl, rfl, rfl, rfl⟩
  · rw [appendChunk_of_ne_nil hbs]
    exact ⟨updateDigest_runningHash _, updateDigest_pendingCount _, updateDigest_pendingWord _, updateDigest_totalBytes _⟩

/-- After at least one byte the digest is that of the new fields (R32, R108). -/
theorem appendChunk_lastDigest {bs : List Byte} (hbs : bs ≠ []) (S : Instance) :
    (appendChunk bs S).lastDigest =
      finalize (appendChunk bs S).runningHash (appendChunk bs S).pendingWord (appendChunk bs S).totalBytes := by
  obtain ⟨hhash, -, hword, htotal⟩ := appendChunk_pending bs S
  rw [hhash, hword, htotal, appendChunk_of_ne_nil hbs]
  exact updateDigest_lastDigest _

/-- Settles O25: the chunk below the block boundary and across it, with the fields every `APPEND` writes. -/
theorem appendResult : Obligations.AppendResult := by
  intro i s ha hc bs n k
  obtain ⟨hhash, hcount, hword, htotal⟩ := appendChunk_pending bs s.inst
  obtain ⟨hobj, hseed⟩ := appendChunk_frame bs s.inst
  have hn : n ≤ 4 := appendedBytes_length_le i
  have hk : k < 4 := s.inst.pendingCount.isLt
  refine ⟨appendChunk bs s.inst, exec_append ha hc, fun hzero => ?_, fun _ hlt => ?_, fun hle => ?_, fun hpos => ⟨?_, ?_, ?_⟩, hseed,
    hobj.trans hc⟩
  · rw [List.eq_nil_of_length_eq_zero hzero, appendChunk_nil]
  · rw [hhash, hcount, hword]
    exact absorbBytes_of_lt_four bs hlt
  · rw [hhash, hcount, hword]
    exact absorbBytes_of_four_le hle (by omega)
  · rw [htotal, absorbBytes_totalBytes]
  · exact appendChunk_lastDigest (List.ne_nil_of_length_pos hpos) _
  · exact appendChunk_mode (List.ne_nil_of_length_pos hpos) _

/-! ### The queries and `RESET` -/

/-- Settles O26: a query keeps the instance, and answers the digest or NOT_CONSTRUCTED. -/
theorem digestReturnsLastDigest : Obligations.DigestReturnsLastDigest := by
  intro s
  rw [exec_eq, instAfter_of_isQuery rfl]
  exact ⟨fun hc => by rw [responseOf_ok rfl fun _ => hc, resultData], fun hc => by rw [responseOf_missing rfl rfl hc]⟩

/-- Settles O27: a legal index with an object and without one, and an index no word carries. -/
theorem digestbReturnsOneByte : Obligations.DigestbReturnsOneByte := by
  intro n s
  rw [exec_eq, instAfter_of_isQuery rfl]
  refine ⟨fun hn hc => ?_, fun hn hc => ?_, fun hn => ?_⟩
  · rw [responseOf_digestb_of_le hc hn]
  · rw [responseOf_missing (i := .digestb n) (decide_eq_true hn) rfl hc]
  · rw [responseOf_of_not_wellFormed (i := .digestb n) (decide_eq_false (Nat.not_le.2 hn))]

theorem instAfter_reset_constructed (S : Instance) : (instAfter .reset S).constructed = S.constructed := by
  cases hc : S.constructed with
  | false => rw [instAfter_reset_missing hc, hc]
  | true => rw [instAfter_reset hc, construct_constructed]

/-- A second `RESET` leaves what the first left (R119). -/
theorem instAfter_reset_reset (S : Instance) : instAfter .reset (instAfter .reset S) = instAfter .reset S := by
  cases hc : S.constructed with
  | false => rw [instAfter_reset_missing hc, instAfter_reset_missing hc]
  | true => rw [instAfter_reset hc, instAfter_reset (construct_constructed _), construct_seed]

theorem responseOf_reset_reset (S : Instance) : responseOf .reset (instAfter .reset S) = responseOf .reset S := by
  simp only [responseOf, instAfter_reset_constructed]

/-- Settles O47: the instance and the response of a second `RESET`. -/
theorem resetIsIdempotent : Obligations.ResetIsIdempotent := by
  intro s t h
  obtain rfl := Host.Outcome.next.inj ((exec_eq .reset s).symm.trans h)
  refine ⟨_, _, exec_eq .reset _, instAfter_reset_reset s.inst, rfl, ?_⟩
  rw [answered_inst, responseOf_reset_reset, answered_outstanding]

end Sys2Proof.Machine
end

section
/-! PROOF. Laws of the datapath (40_datapath.md R85, R89, R92, R93, R100, R102): the block word as a number, what the mixer and the avalanche
lose, and what an empty tail and a small value do. -/

namespace Sys2Proof.Machine

/-! ### The block word (R85) -/

/-- Four bytes side by side, the byte of lowest offset lowest (R46). -/
theorem blockWord_eq_append (b0 b1 b2 b3 : Byte) : blockWord b0 b1 b2 b3 = (b3 ++ b2 ++ b1 ++ b0 : BitVec 32) := by
  obtain ⟨hlane0, hlane1, hlane2, hlane3⟩ := lane_pack4 b0 b1 b2 b3
  have hbytes : (lane 3 _ ++ lane 2 _ ++ lane 1 _ ++ lane 0 _ : BitVec 32) = _ := digestBytes_append (packLanes [b0, b1, b2, b3])
  rw [hlane0, hlane1, hlane2, hlane3, packLanes_four] at hbytes
  exact hbytes.symm

/-- A byte put below a value. -/
theorem toNat_append_byte {w : Nat} (x : BitVec w) (b : Byte) : (x ++ b).toNat = 256 * x.toNat + b.toNat := by
  rw [BitVec.toNat_append, ← Nat.shiftLeft_add_eq_or_of_lt b.isLt, Nat.shiftLeft_eq, Nat.mul_comm]

theorem toNat_blockWord (b0 b1 b2 b3 : Byte) :
    (blockWord b0 b1 b2 b3).toNat = b0.toNat + 256 * b1.toNat + 65536 * b2.toNat + 16777216 * b3.toNat := by
  rw [blockWord_eq_append, toNat_append_byte, toNat_append_byte, toNat_append_byte]
  omega

/-- Settles O36: the four bytes in base 256, and the spec's example. -/
theorem blockWordIsLittleEndian : Obligations.BlockWordIsLittleEndian := ⟨toNat_blockWord, by decide⟩

/-! ### The stages lose nothing (R89, R92) -/

/-- Multiplying by a constant with an inverse modulo 2^32 loses nothing. -/
theorem mul32_injective {c d : Word} (h : d * c = 1#32) : Function.Injective (fun x => mul32 x c) :=
  Function.LeftInverse.injective (g := fun y => d * y) fun x => by
    show d * (c * x) = x
    rw [← BitVec.mul_assoc, h, BitVec.one_mul]

theorem rotl32_injective {r : Nat} (hr : r < 32) : Function.Injective (fun x => rotl32 x r) := by
  intro x y hxy
  apply BitVec.eq_of_getLsbD_eq
  intro i hi
  have hback : ((i + r) % 32 + 32 - r) % 32 = i := by omega
  have hbit := congrArg (fun z => z.getLsbD ((i + r) % 32)) hxy
  simpa only [getLsbD_rotl32 _ hr (Nat.mod_lt (i + r) (by decide)), hback] using hbit

/-- A value that a right shift by at least one place leaves as it is has no bit. -/
theorem eq_zero_of_ushiftRight_eq {s : Nat} (hs : 0 < s) {d : Word} (h : d >>> s = d) : d = 0#32 := by
  by_contra hne
  have hpos : 0 < d.toNat := Nat.pos_of_ne_zero fun h0 => hne (BitVec.eq_of_toNat_eq h0)
  have hlt := Nat.div_lt_self hpos (Nat.one_lt_two_pow hs.ne')
  rw [← Nat.shiftRight_eq_div_pow, ← BitVec.toNat_ushiftRight, h] at hlt
  exact Nat.lt_irrefl _ hlt

/-- Two values with one xor-shift differ by a value that the shift leaves as it is (R91). -/
theorem xorShift_injective {s : Nat} (hs : 0 < s) : Function.Injective (fun x => xorShift x s) := by
  intro x y hxy
  have hdiff : (x ^^^ y) >>> s = x ^^^ y := by
    have hzero : (x ^^^ x >>> s) ^^^ (y ^^^ y >>> s) = 0#32 := BitVec.xor_eq_zero_iff.2 hxy
    have hswap : (x ^^^ x >>> s) ^^^ (y ^^^ y >>> s) = (x >>> s ^^^ y >>> s) ^^^ (x ^^^ y) := by ac_rfl
    rw [BitVec.ushiftRight_xor_distrib]
    exact BitVec.xor_eq_zero_iff.1 (hswap.symm.trans hzero)
  exact BitVec.xor_eq_zero_iff.1 (eq_zero_of_ushiftRight_eq hs hdiff)

/-! Each constant is odd and so has an inverse modulo 2^32. -/

theorem mul32_c1_injective : Function.Injective (fun x => mul32 x c1) := mul32_injective (d := 0xdee13bb1#32) (by decide)
theorem mul32_c2_injective : Function.Injective (fun x => mul32 x c2) := mul32_injective (d := 0x56ed309b#32) (by decide)
theorem mul32_mConst_injective : Function.Injective (fun x => mul32 x mConst) := mul32_injective (d := 0xcccccccd#32) (by decide)
theorem mul32_f1_injective : Function.Injective (fun x => mul32 x f1) := mul32_injective (d := 0xa5cb9243#32) (by decide)
theorem mul32_f2_injective : Function.Injective (fun x => mul32 x f2) := mul32_injective (d := 0x7ed1b41d#32) (by decide)

theorem mixK_injective : Function.Injective mixK :=
  mul32_c2_injective.comp ((rotl32_injective (by decide : r1 < 32)).comp mul32_c1_injective)

theorem blockMix_injective (k : Word) : Function.Injective (fun h => blockMix h k) := by
  have hadd : Function.Injective (fun x => add32 x nConst) := add_right_injective nConst
  have hxor : Function.Injective (fun h => h ^^^ mixK k) := fun _ _ h => (BitVec.xor_left_inj _).1 h
  exact hadd.comp (mul32_mConst_injective.comp ((rotl32_injective (by decide : r2 < 32)).comp hxor))

theorem fMix_injective : Function.Injective fMix := by
  have h16 := xorShift_injective (s := 16) (by decide)
  have h13 := xorShift_injective (s := 13) (by decide)
  exact h16.comp (mul32_f2_injective.comp (h13.comp (mul32_f1_injective.comp h16)))

/-- Settles O37: each stage of the mixer is injective, and there are finitely many words. -/
theorem blockMixerIsBijective : Obligations.BlockMixerIsBijective :=
  ⟨by decide, Finite.injective_iff_bijective.1 mixK_injective, fun k => Finite.injective_iff_bijective.1 (blockMix_injective k),
    by decide⟩

/-- Settles O38: each stage of the avalanche is injective, and there are finitely many words. -/
theorem avalancheIsBijective : Obligations.AvalancheIsBijective :=
  ⟨by decide, Finite.injective_iff_bijective.1 fMix_injective, by decide, by decide⟩

/-! ### The empty tail, the count, and small values (R93, R100, R102) -/

theorem lowCount_congr {tb tb' : ByteCount} (h : tb.toNat % 2 ^ 32 = tb'.toNat % 2 ^ 32) : lowCount tb = lowCount tb' := by
  apply BitVec.eq_of_toNat_eq
  simpa only [lowCount, BitVec.extractLsb'_toNat, Nat.shiftRight_zero] using h

/-- Settles O39: an empty tail mixes to zero, and the count enters by its low 32 bits. -/
theorem emptyTailFoldsToNothing : Obligations.EmptyTailFoldsToNothing := by
  refine ⟨finalize_zero_tail, fun h t tb tb' hcount => ?_⟩
  rw [finalize, finalize, lowCount_congr hcount]

theorem xorShift_of_lt {x : Word} {s : Nat} (h : x.toNat < 2 ^ s) : xorShift x s = x := by
  have hzero : x >>> s = 0#32 := by
    apply BitVec.eq_of_toNat_eq
    rw [BitVec.toNat_ushiftRight, Nat.shiftRight_eq_div_pow, Nat.div_eq_of_lt h]
    rfl
  rw [xorShift, hzero, BitVec.xor_zero]

/-- Settles O40, for both shifts of the avalanche. -/
theorem smallValuesPassXorShift : Obligations.SmallValuesPassXorShift := fun _ => ⟨xorShift_of_lt, xorShift_of_lt⟩

end Sys2Proof.Machine
end

section
/-! PROOF. Lists of commands (30_encoding.md R80 to R82, 41_construct_append.md R111, R114, 42_reset_digest_query.md R117, R118, R126): how a
stream is split, what came before a `RESET`, the pseudo-instructions, and queries in between. -/

namespace Sys2Proof.Machine

/-! ### Two chunks are one (R109, R111) -/

theorem absorbByte_withDigestMode (b : Byte) (d : Word) (m : Mode) (S : Instance) :
    absorbByte b (withDigestMode d m S) = withDigestMode d m (absorbByte b S) := by
  by_cases h : S.pendingCount = 3
  · rw [absorbByte_block b S h, absorbByte_block b (withDigestMode d m S) h]; rfl
  · rw [absorbByte_pending b S h, absorbByte_pending b (withDigestMode d m S) h]; rfl

/-- Absorption neither reads nor writes the digest and the mode (R105). -/
theorem absorbBytes_withDigestMode (bs : List Byte) (d : Word) (m : Mode) (S : Instance) :
    absorbBytes bs (withDigestMode d m S) = withDigestMode d m (absorbBytes bs S) := by
  induction bs generalizing S with
  | nil => rfl
  | cons b bs ih => rw [absorbBytes_cons, absorbByte_withDigestMode, ih, absorbBytes_cons]

/-- A chunk of at least one byte overwrites the digest and the mode it finds (R109). -/
theorem appendChunk_withDigestMode {bs : List Byte} (h : bs ≠ []) (d : Word) (m : Mode) (S : Instance) :
    appendChunk bs (withDigestMode d m S) = appendChunk bs S := by
  rw [appendChunk_of_ne_nil h, appendChunk_of_ne_nil h, absorbBytes_withDigestMode]
  rfl

/-- Two chunks leave what their bytes in one chunk leave (R111). -/
theorem appendChunk_append (bs cs : List Byte) (S : Instance) : appendChunk (bs ++ cs) S = appendChunk cs (appendChunk bs S) := by
  by_cases hcs : cs = []
  · rw [hcs, List.append_nil, appendChunk_nil]
  by_cases hbs : bs = []
  · rw [hbs, List.nil_append, appendChunk_nil]
  have hfirst : appendChunk bs S = withDigestMode (appendChunk bs S).lastDigest .accumulating (absorbBytes bs S) := by
    rw [appendChunk_of_ne_nil hbs]
    rfl
  rw [hfirst, appendChunk_withDigestMode hcs, appendChunk_of_ne_nil hcs, appendChunk_of_ne_nil (List.append_ne_nil_of_right_ne_nil _ hcs),
    absorbBytes_append]

section Appends
variable {is : List Instr} (happ : ∀ i ∈ is, isAppend i = true) {S : Instance} (hc : S.constructed = true)
include happ hc

/-- On an object a list of `APPEND` commands leaves what its bytes in one chunk leave (R111). -/
theorem instAfterAll_of_appends : instAfterAll is S = appendChunk (is.flatMap appendedBytes) S := by
  induction is generalizing S with
  | nil => rfl
  | cons i is ih =>
    have hi := happ i List.mem_cons_self
    rw [instAfterAll, ih (fun j hj => happ j (List.mem_cons_of_mem i hj)) (instAfter_keeps_object i hc), instAfter_append hi hc,
      List.flatMap_cons, appendChunk_append]

/-- On an object every `APPEND` answers OK and its own byte count (R109). -/
theorem responsesOf_appends :
    responsesOf is S = is.map (fun i => ⟨.ok, BitVec.ofNat 32 (appendedBytes i).length⟩) := by
  induction is generalizing S with
  | nil => rfl
  | cons i is ih =>
    have hi := happ i List.mem_cons_self
    rw [responsesOf, ih (fun j hj => happ j (List.mem_cons_of_mem i hj)) (instAfter_keeps_object i hc), responseOf_of_isAppend hi,
      appendResponse, if_pos hc, List.map_cons]

end Appends

/-- Settles O41: the chunks as one chunk on the fresh object, which is the empty stream. -/
theorem streamingEquivalence : Obligations.StreamingEquivalence := by
  intro seed is s happ
  have hinst : instAfterAll (.init seed :: is) s.inst = instanceOfStream seed (is.flatMap appendedBytes) := by
    rw [instAfterAll, instAfter_init, instAfterAll_of_appends happ (construct_constructed seed), ← instanceOfStream_nil,
      appendChunk_instanceOfStream, List.nil_append]
  refine ⟨_, execAll_eq _ s, hinst, ?_⟩
  rw [hinst, instanceOfStream_eq]

/-- Settles O42: each command moves the instance as it moves the stream. -/
theorem streamViewIsKept : Obligations.StreamViewIsKept :=
  fun is s _ h _ => ⟨_, execAll_eq is s, matchesGhost_instAfterAll is h⟩

/-! ### What came before a `RESET` (R117, R118) -/

/-- Commands other than `INIT` keep the object and its seed (R24, R25). -/
theorem instAfterAll_keeps_object {is : List Instr} (hi : ∀ i ∈ is, ∀ seed, i ≠ .init seed) {S : Instance}
    (hc : S.constructed = true) : (instAfterAll is S).constructed = true ∧ (instAfterAll is S).seed = S.seed := by
  induction is generalizing S with
  | nil => exact ⟨hc, rfl⟩
  | cons i is ih =>
    rw [instAfterAll, ← instAfter_seed (hi i List.mem_cons_self) S]
    exact ih (fun j hj => hi j (List.mem_cons_of_mem i hj)) (instAfter_keeps_object i hc)

/-- After `INIT`, commands other than `INIT`, and `RESET`, the object is as `INIT` left it (R41, R117). -/
theorem instAfterAll_init_reset (seed : Word) {xs : List Instr} (hx : ∀ i ∈ xs, ∀ seed, i ≠ .init seed) (S : Instance) :
    instAfterAll (.init seed :: (xs ++ [.reset])) S = construct seed := by
  obtain ⟨hobj, hseed⟩ := instAfterAll_keeps_object hx (construct_constructed seed)
  rw [instAfterAll, instAfter_init, instAfterAll_append, instAfterAll, instAfterAll, instAfter_reset hobj, hseed, construct_seed]

theorem ne_init_of_append_or_query {i : Instr} (h : isAppend i = true ∨ isQuery i = true) (seed : Word) : i ≠ .init seed := by
  rintro rfl
  exact h.elim (nomatch ·) (nomatch ·)

/-- Settles O46: both runs reach the fresh object of the seed before `P`. -/
theorem resetEquivalence : Obligations.ResetEquivalence := by
  intro seed xs ps s hxs _
  have hfresh := instAfterAll_init_reset seed (xs := xs) (fun i hi => ne_init_of_append_or_query (hxs i hi)) s.inst
  have hsplit : Instr.init seed :: (xs ++ .reset :: ps) = (.init seed :: (xs ++ [.reset])) ++ ps := by simp
  refine ⟨_, _, s.outstanding ++ responsesOf (.init seed :: (xs ++ [.reset])) s.inst, s.outstanding ++ [⟨.ok, 0#32⟩],
    responsesOf ps (construct seed), execAll_eq _ s, execAll_eq _ s, ?sameObject, ?withReset, ?without, responsesOf_length ps _⟩
  case sameObject =>
    rw [hsplit, instAfterAll_append, hfresh]
    rfl
  case withReset => rw [hsplit, responsesOf_append, hfresh, List.append_assoc]
  case without =>
    rw [List.append_assoc]
    rfl

/-- Settles O24: the fresh object that `RESET` leaves, in the spec's example too. -/
theorem partialResetExcluded : Obligations.PartialResetExcluded := by
  refine ⟨fun s hc => ⟨_, exec_eq .reset s, ?fresh⟩, fun s => ⟨_, execAll_eq _ s, ?specExample⟩, by decide⟩
  case fresh =>
    rw [answered_inst, instAfter_reset hc]
    exact ⟨rfl, rfl, rfl, rfl⟩
  case specExample =>
    have hfresh := instAfterAll_init_reset 0x5082EDEE#32 (xs := [.append3 0#8 0#8 0#8]) (by simp) s.inst
    have hdigest : (construct 0x5082EDEE#32).lastDigest = 0x4CAF54BC#32 := by decide
    rw [← hdigest, ← hfresh]
    rfl

/-! ### Queries (R126) -/

/-- Queries all find the instance as it is (R126). -/
theorem responsesOf_of_queries {is : List Instr} (hq : ∀ i ∈ is, isQuery i = true) (S : Instance) :
    responsesOf is S = is.map (fun i => responseOf i S) := by
  induction is with
  | nil => rfl
  | cons i is ih =>
    rw [responsesOf, instAfter_of_isQuery (hq i List.mem_cons_self), ih fun j hj => hq j (List.mem_cons_of_mem i hj), List.map_cons]

/-- Settles O50: a query leaves the instance to the commands behind it. -/
theorem queriesInsertAnywhere : Obligations.QueriesInsertAnywhere := by
  intro pre post q s hq
  refine ⟨_, _, responsesOf pre s.inst, responsesOf post (instAfterAll pre s.inst), responseOf q (instAfterAll pre s.inst),
    execAll_eq _ s, execAll_eq _ s, ?_, ?_, ?_, responsesOf_length _ _, responsesOf_length _ _⟩
  · simp only [instAfterAll_append, instAfterAll, instAfter_of_isQuery hq]
  · simp only [responsesOf_append, List.append_assoc]
  · simp only [responsesOf_append, responsesOf, instAfter_of_isQuery hq, List.append_assoc, List.singleton_append]

/-! ### The pseudo-instructions (R80 to R82) -/

theorem appends_isAppend (bs : List Byte) : ∀ i ∈ appends bs, isAppend i = true := by
  fun_induction appends bs <;> simp_all [isAppend]

theorem appends_bytes (bs : List Byte) : (appends bs).flatMap appendedBytes = bs := by
  fun_induction appends bs <;> simp_all [appendedBytes]

theorem appends_length (bs : List Byte) : (appends bs).length = (bs.length + 3) / 4 := by
  fun_induction appends bs with
  | case1 b0 b1 b2 b3 rest ih => simp only [List.length_cons, ih]; omega
  | _ => simp

/-- The source's Append returns the number of bytes it was given (R114). -/
theorem bytesConsumed_appends (is : List Instr) :
    bytesConsumed (is.map (fun i => ⟨.ok, BitVec.ofNat 32 (appendedBytes i).length⟩)) = (is.flatMap appendedBytes).length := by
  have hcount (i : Instr) : (BitVec.ofNat 32 (appendedBytes i).length).toNat = (appendedBytes i).length := by
    have hle := appendedBytes_length_le i
    rw [BitVec.toNat_ofNat, Nat.mod_eq_of_lt (by omega)]
  simp only [bytesConsumed, List.map_map, Function.comp_def, hcount, List.length_flatMap]

/-- Settles O48: the expansion is a list of `APPEND` commands with the bytes of the string, and only the bytes count. -/
theorem appendsExpansionConsumesAll : Obligations.AppendsExpansionConsumesAll := by
  intro bs s hc
  have hresp := responsesOf_appends (appends_isAppend bs) hc
  refine ⟨appends_length bs, _, _, execAll_eq _ s, rfl, ?_, ?_, fun is happ hbytes => ⟨_, execAll_eq is s, ?_⟩⟩
  · rw [hresp]
    simp
  · rw [hresp, bytesConsumed_appends, appends_bytes]
  · rw [instAfterAll_of_appends happ hc, hbytes, instAfterAll_of_appends (appends_isAppend bs) hc, appends_bytes]

theorem digestAppend_eq_map : digestAppend = (List.range 4).map (fun k => .digestb (BitVec.ofNat 3 k)) := rfl

/-- The byte responses of `DIGESTAPPEND`, in order (R81). -/
theorem responsesOf_digestAppend {S : Instance} (hc : S.constructed = true) :
    responsesOf digestAppend S = (List.range 4).map (fun k => ⟨.ok, zext32 (digestByte k S.lastDigest)⟩) := by
  rw [responsesOf_of_queries (by decide), digestAppend_eq_map, List.map_map]
  exact List.map_congr_left fun k hk => responseOf_digestb hc (List.mem_range.1 hk)

/-- Settles O49: the four byte responses and the one word response, in the host's buffer. -/
theorem digestAppendFormsAgree : Obligations.DigestAppendFormsAgree := by
  intro s buffer hc
  refine ⟨_, _, execAll_eq digestAppend s, execAll_eq digestAppendW s, ?bytes, ?word⟩
  case bytes =>
    rw [responsesOf_digestAppend hc, hostAppendBytes, serializeDigest_eq_map_range, List.map_map]
    simp only [Function.comp_def, lane_zext32]
  case word =>
    have hword : responsesOf digestAppendW s.inst = [⟨.ok, s.inst.lastDigest⟩] := by
      rw [responsesOf_of_queries (by decide), digestAppendW, List.map_singleton, responseOf_ok rfl fun _ => hc, resultData]
    rw [hword]
    rfl

end Sys2Proof.Machine
end

section
/-! PROOF. Runs through the ports (70_reset_and_hazards.md R157, 10_state.md R34, R39, 60_exceptions.md R135): a host that presents words one by
one and takes each response, against the reference that keeps the whole stream. -/

namespace Sys2Proof.Machine

/-! ### One word, and a list of words -/

/-- The instance an accepted word leaves: an ill-formed one changes nothing (R74). -/
def instAfterWord (w : Command) (S : Instance) : Instance :=
  match decode w with
  | some i => instAfter i S
  | none => S

/-- The response of an accepted word (R74, R129). -/
def responseOfWord (w : Command) (S : Instance) : Response :=
  match decode w with
  | some i => responseOf i S
  | none => ⟨.illegalEncoding, 0#32⟩

/-- The instance a list of words leaves. -/
def instAfterWords : List Command → Instance → Instance
  | [], S => S
  | w :: ws, S => instAfterWords ws (instAfterWord w S)

/-- The responses of a list of words. -/
def responsesOfWords : List Command → Instance → List Response
  | [], _ => []
  | w :: ws, S => responseOfWord w S :: responsesOfWords ws (instAfterWord w S)

theorem instAfterWord_of_decode {w : Command} {i : Instr} (h : decode w = some i) (S : Instance) :
    instAfterWord w S = instAfter i S := by
  rw [instAfterWord, h]

theorem instAfterWord_of_ill {w : Command} (h : decode w = none) (S : Instance) : instAfterWord w S = S := by
  rw [instAfterWord, h]

theorem responseOfWord_of_decode {w : Command} {i : Instr} (h : decode w = some i) (S : Instance) :
    responseOfWord w S = responseOf i S := by
  rw [responseOfWord, h]

theorem responseOfWord_of_ill {w : Command} (h : decode w = none) (S : Instance) :
    responseOfWord w S = ⟨.illegalEncoding, 0#32⟩ := by
  rw [responseOfWord, h]

theorem acceptCommand_eq_answered (w : Command) (s : State) :
    acceptCommand w s = .next (answered s (instAfterWord w s.inst) (responseOfWord w s.inst)) := by
  cases hd : decode w with
  | none => rw [acceptCommand_of_ill hd, instAfterWord_of_ill hd, responseOfWord_of_ill hd]
  | some i => rw [acceptCommand_of_decode hd, instAfterWord_of_decode hd, responseOfWord_of_decode hd]

theorem responsesOfWords_length (ws : List Command) (S : Instance) : (responsesOfWords ws S).length = ws.length := by
  induction ws generalizing S with
  | nil => rfl
  | cons w ws ih => rw [responsesOfWords, List.length_cons, ih, List.length_cons]

/-! ### Two steps a word (R151, R152) -/

/-- Nothing presented, no edge to come, no response waiting. -/
def idle (s : State) : Prop := s.commands = [] ∧ s.edges = [] ∧ s.outstanding = []

/-- The state `s` after the host has presented `w` and taken its response. -/
def served (w : Command) (s : State) : State :=
  { s with inst := instAfterWord w s.inst, taken := s.taken ++ [responseOfWord w s.inst] }

theorem idle_served {s : State} (h : idle s) (w : Command) : idle (served w s) := h

/-- A command edge accepts the first word, and the response edge behind it takes the response. -/
theorem runSteps_offerCommands_cons {s : State} (h : idle s) (w : Command) (ws : List Command) (n : Nat) :
    runSteps (n + 2) (offerCommands (w :: ws) s) = runSteps n (offerCommands ws (served w s)) := by
  obtain ⟨S, commands, edges, outstanding, taken, draws⟩ := s
  obtain ⟨rfl, rfl, rfl⟩ := h
  have haccept := (step_of_accept (s := offerCommands (w :: ws) ⟨S, [], [], [], taken, draws⟩) rfl rfl rfl).trans
    (acceptCommand_eq_answered w _)
  rw [runSteps_succ_of_step haccept, runSteps_succ_of_step (step_of_response rfl rfl)]
  rfl

/-- Everything a run of two steps a word does from an idle state. -/
theorem runSteps_offerCommands (ws : List Command) {s : State} (h : idle s) :
    runSteps (2 * ws.length) (offerCommands ws s) =
      .next { s with inst := instAfterWords ws s.inst, taken := s.taken ++ responsesOfWords ws s.inst } := by
  induction ws generalizing s with
  | nil => simp [runSteps, offerCommands, instAfterWords, responsesOfWords]
  | cons w ws ih =>
    rw [List.length_cons, Nat.mul_succ, runSteps_offerCommands_cons h, ih (idle_served h w)]
    simp only [served, instAfterWords, responsesOfWords, List.append_assoc, List.singleton_append]

/-! ### The reference (R34, R121) -/

/-- A machine whose instance agrees with the stream answers a well-formed command as the reference does (R121, R128). -/
theorem responseOf_eq_ghostResponse {i : Instr} (hw : i.wellFormed = true) {S : Instance} {g : Ghost} (h : matchesGhost S g) :
    responseOf i S = ghostResponse i g := by
  cases g with
  | none =>
    cases hn : needsObject i with
    | true => rw [responseOf_missing hw hn h]; cases i <;> cases hn <;> rfl
    | false => cases i <;> cases hn <;> rfl
  | some p =>
    obtain rfl : S = instanceOfStream p.1 p.2 := h
    cases i with
    | digestb n => exact if_pos (of_decide_eq_true hw)
    | _ => rfl

/-- Word by word the machine answers what the reference answers, and its instance goes on agreeing with the stream. -/
theorem words_match_reference (ws : List Command) {S : Instance} {g : Ghost} (h : matchesGhost S g) :
    responsesOfWords ws S = ghostRun ws g ∧ matchesGhost (instAfterWords ws S) (ghostWords ws g) := by
  induction ws generalizing S g with
  | nil => exact ⟨rfl, h⟩
  | cons w ws ih =>
    rw [responsesOfWords, instAfterWords, ghostRun, ghostWords]
    cases hd : decode w with
    | none =>
      obtain ⟨hresp, hinst⟩ := ih h
      rw [responseOfWord_of_ill hd, instAfterWord_of_ill hd, List.filterMap_cons_none hd, hresp]
      exact ⟨rfl, hinst⟩
    | some i =>
      obtain ⟨hresp, hinst⟩ := ih (matchesGhost_instAfter i h)
      rw [responseOfWord_of_decode hd, instAfterWord_of_decode hd, List.filterMap_cons_some hd, hresp,
        responseOf_eq_ghostResponse (wellFormed_of_decode hd) h]
      exact ⟨rfl, hinst⟩

/-- Settles O44: the run's instance and responses, and the reference word by word. -/
theorem machineRefinesReference : Obligations.MachineRefinesReference := by
  intro ws s g h hcommands hedges houtstanding
  obtain ⟨hresp, hinst⟩ := words_match_reference ws h
  exact ⟨_, runSteps_offerCommands ws ⟨hcommands, hedges, houtstanding⟩, by rw [hresp], houtstanding, hcommands, hedges, hinst⟩

/-- Settles O45: without an object both machines answer as the reference with no stream. -/
theorem powerOnValuesUnobservable : Obligations.PowerOnValuesUnobservable := by
  intro ws S S' hS hS'
  obtain ⟨t, hrun, htaken, -⟩ := machineRefinesReference ws { State.reset with inst := S } none hS rfl rfl rfl
  obtain ⟨t', hrun', htaken', -⟩ := machineRefinesReference ws { State.reset with inst := S' } none hS' rfl rfl rfl
  obtain ⟨hresp, -⟩ := words_match_reference ws (S := S) (g := none) hS
  refine ⟨t, t', hrun, hrun', htaken.trans htaken'.symm, ?_⟩
  rw [htaken, ← hresp]
  exact responsesOfWords_length ws S

/-! ### A host that emits the encodings of the spec (R135) -/

/-- The words of well-formed commands do what the commands do (R78). -/
theorem responsesOfWords_encode {is : List Instr} (hw : ∀ i ∈ is, i.wellFormed = true) (S : Instance) :
    responsesOfWords (is.map encode) S = responsesOf is S := by
  induction is generalizing S with
  | nil => rfl
  | cons i is ih =>
    have hd := decode_encode (hw i List.mem_cons_self)
    rw [List.map_cons, responsesOfWords, responseOfWord_of_decode hd, instAfterWord_of_decode hd,
      ih fun j hj => hw j (List.mem_cons_of_mem i hj), responsesOf]

/-- Only `INIT` makes an object, and no command takes one away (R24). -/
theorem instAfter_constructed {i : Instr} (hi : ∀ seed, i ≠ .init seed) (S : Instance) :
    (instAfter i S).constructed = S.constructed := by
  rcases instr_classes i with ⟨seed, rfl⟩ | rfl | ha | hq
  · exact absurd rfl (hi seed)
  · exact instAfter_reset_constructed S
  · rw [instAfter_of_isAppend ha, (appendAfter_frame _ S).1]
  · rw [instAfter_of_isQuery hq]

/-- The first command of a source-faithful host finds the object it needs, and the rest is source-faithful behind it (R135). -/
theorem initFirst_cons {i : Instr} {is : List Instr} {S : Instance} (h : initFirst S.constructed (i :: is) = true) :
    (needsObject i = true → S.constructed = true) ∧ initFirst (instAfter i S).constructed is = true := by
  by_cases hi : ∃ seed, i = .init seed
  · obtain ⟨seed, rfl⟩ := hi
    exact ⟨(nomatch ·), h⟩
  · have hne (seed : Word) : i ≠ .init seed := fun heq => hi ⟨seed, heq⟩
    rw [initFirst.eq_3 _ _ _ hne, Bool.and_eq_true, Bool.or_eq_true, Bool.not_eq_true'] at h
    obtain ⟨hobj, hrest⟩ := h
    rw [instAfter_constructed hne]
    exact ⟨fun hn => hobj.resolve_right (by rw [hn]; decide), hrest⟩

theorem responsesOf_all_ok {is : List Instr} (hw : ∀ i ∈ is, i.wellFormed = true) {S : Instance}
    (hfirst : initFirst S.constructed is = true) : ∀ r ∈ responsesOf is S, r.status = .ok := by
  induction is generalizing S with
  | nil => exact fun _ hr => nomatch hr
  | cons i is ih =>
    obtain ⟨hobj, hrest⟩ := initFirst_cons hfirst
    rw [responsesOf, List.forall_mem_cons, responseOf_ok (hw i List.mem_cons_self) hobj]
    exact ⟨rfl, ih (fun j hj => hw j (List.mem_cons_of_mem i hj)) hrest⟩

/-- Settles O51: the words of the commands answer what the commands answer, each with the object it needs. -/
theorem sourceFaithfulHostSeesOnlyOk : Obligations.SourceFaithfulHostSeesOnlyOk := by
  intro is s hcommands hedges houtstanding hw hfirst
  have hrun := runSteps_offerCommands (is.map encode) ⟨hcommands, hedges, houtstanding⟩
  rw [List.length_map, responsesOfWords_encode hw] at hrun
  exact ⟨_, _, hrun, rfl, responsesOf_length is _, responsesOf_all_ok hw hfirst⟩

end Sys2Proof.Machine
end

section
/-! PROOF. The assembler text (30_encoding.md R79): the canonical tokens of a command are read as that command. -/

namespace Sys2Proof.Machine

theorem byteOf_toNat (b : Byte) : byteOf b.toNat = some b := by
  rw [byteOf, if_pos b.isLt, BitVec.ofNat_toNat, BitVec.setWidth_eq]

/-- The tokens behind the first byte of a list: a comma before each byte, then the brace (R79). -/
def tokensAfter (bs : List Byte) : List Token := bs.flatMap (fun b => [.comma, .num b.toNat]) ++ [.rbrace]

theorem bytesAfter_tokensAfter (bs : List Byte) : bytesAfter (tokensAfter bs) = some bs := by
  induction bs with
  | nil => rfl
  | cons b bs ih =>
    have hcons : tokensAfter (b :: bs) = .comma :: .num b.toNat :: tokensAfter bs := rfl
    rw [hcons, bytesAfter, byteOf_toNat, ih]

theorem bytesIn_cons (b : Byte) (bs : List Byte) : bytesIn (.num b.toNat :: tokensAfter bs) = some (b :: bs) := by
  rw [bytesIn, byteOf_toNat, bytesAfter_tokensAfter]

/-- `APPEND` and a byte list that fits one command (R79). -/
theorem parseLine_append {ts : List Token} {bs : List Byte} {i : Instr} (hbytes : bytesIn ts = some bs) (hi : appendOf bs = some i) :
    parseLine (.name "APPEND".toList :: .lbrace :: ts) = some [i] := by
  simp [parseLine, hbytes, hi]

/-- Settles O7: the mnemonic and the operands, command by command. -/
theorem assemblerReadsEachCommand : Obligations.AssemblerReadsEachCommand := by
  intro i hw
  cases i with
  | init seed => simp [instrTokens, parseLine, seed.isLt]
  | reset => decide
  | append0 => decide
  | append1 b0 => exact parseLine_append (bytesIn_cons b0 []) rfl
  | append2 b0 b1 => exact parseLine_append (bytesIn_cons b0 [b1]) rfl
  | append3 b0 b1 b2 => exact parseLine_append (bytesIn_cons b0 [b1, b2]) rfl
  | append4 b0 b1 b2 b3 => exact parseLine_append (bytesIn_cons b0 [b1, b2, b3]) rfl
  | digest => decide
  | digestb n =>
    have hn : n.toNat ≤ 3 := of_decide_eq_true hw
    simp [instrTokens, parseLine, hn]
  | size => decide
  | blksz => decide

end Sys2Proof.Machine
end
